-- ==== Sys2Proof/Word.lean ====
section
/-! DEFINITION. The two widths of the block (R8): a byte and a 16-bit word. -/

namespace Sys2Proof

/-- An 8-bit value: a memory byte, a register half, an opcode byte (R8, R11). -/
abbrev Byte := BitVec 8

/-- A 16-bit value: a register word, an address, `op_in` (R8, R11). -/
abbrev Word := BitVec 16

end Sys2Proof
end

