-- ==== Sys2Proof/Config.lean ====
section
/-! DEFINITION. The parameters of R9: `MEM_INIT` (a free constant) and `ADMITTED_OPCODES` (its default).
`DIAG` is a sink outside the block; what is given to it is `Machine.TxOutcome.diagnostic`. -/

namespace Sys2Proof

/-- `MEM_INIT` (R9, R66, D11): the content of Memory when the first transaction starts, an arbitrary total
function of the address. It has no body: no proof can see a value of it. Log entry 1. -/
opaque Config.memInit : Word → Byte

/-- The 53 opcode bytes of R78, in its order. -/
def Config.admittedOpcodes : List Byte :=
  [0x01, 0x02, 0x03, 0x04, 0x05, 0x06, 0x07, 0x08, 0x09, 0x0A, 0x0B, 0x0C, 0x0D, 0x0E, 0x0F] ++
  [0x11, 0x12, 0x13, 0x14, 0x15, 0x16, 0x17, 0x18, 0x19, 0x1A, 0x1B, 0x1C, 0x1D, 0x1E, 0x1F] ++
  [0x20, 0x21, 0x23, 0x24, 0x25, 0x26, 0x28, 0x29, 0x2A, 0x2B, 0x2C, 0x2D, 0x2E] ++
  [0x30, 0x31, 0x33, 0x38, 0x39, 0x3A, 0x3B, 0x3C, 0x3D, 0x3E]

/-- `ADMITTED_OPCODES` at its default, all 53 (R9, R78, D3). DESIGN CHOICE of the spec taken as the model's
value: log entry 2. A narrower set is an argument of `decodeIn`. -/
def Config.admitted (op : Byte) : Bool := Config.admittedOpcodes.contains op

end Sys2Proof
end

