-- ==== Sys2Proof/Syntax.lean ====
section
/-! DEFINITION. The names of the block (registers, halves, pairs, 8-bit registers, conditions, formats), the
instructions (one constructor per row of the opcode table), and an instruction with its immediate bytes. -/

namespace Sys2Proof

/-- The six words of the Register File (R20). -/
inductive Reg16 where
  | af | bc | de | hl | sp | pc
deriving DecidableEq, Repr

/-- The two 8-bit views of a word (R21). -/
inductive Half where
  | high | low
deriving DecidableEq, Repr

/-- The pairs the Register-Pair Selector can name (R32). Exactly four: a field outside 0 to 3 is unrepresentable
(R106, R222). -/
inductive Pair where
  | bc | de | hl | sp
deriving DecidableEq, Repr

/-- The 8-bit registers that `INC r`, `DEC r` and `LD r,n` name (R34). -/
inductive Reg8 where
  | b | c | d | e | h | l | a
deriving DecidableEq, Repr

/-- The operand of `LD A,(..)` (R139): the pair that addresses memory, with its modification afterwards. -/
inductive Indirect where
  | bc | de | hlInc | hlDec
deriving DecidableEq, Repr

/-- The conditions of `JR cc,e` (R205). -/
inductive Cond where
  | nz | z | nc | c
deriving DecidableEq, Repr

/-- The four flags (R27). -/
inductive Flag where
  | z | n | h | c
deriving DecidableEq, Repr

/-- The formats of R73, and `stub` for the extended space, which has no length (R82, R105). -/
inductive Format where
  | implied | imm8 | disp8 | imm16 | stub
deriving DecidableEq, Repr

/-- The instructions, one constructor per row of the opcode table. Immediates are no part of an instruction:
the core reads them from Memory during the transaction (R74). The stub's row has a free low byte (R80). -/
inductive Instr where
  -- 16-bit immediate loads (R120)
  | ldBCnn | ldDEnn | ldHLnn | ldSPnn
  -- accumulator stores and loads through a pair (R138, R139)
  | ldIndBCA | ldIndDEA | ldAIndBC | ldAIndDE | ldAIndHLInc | ldAIndHLDec
  -- 16-bit increment and decrement (R140)
  | incBC | incDE | incHL | incSP | decBC | decDE | decHL | decSP
  -- 8-bit increment and decrement (R150)
  | incB | incC | incD | incE | incH | incL | incA
  | decB | decC | decD | decE | decH | decL | decA
  -- 8-bit immediate loads (R177)
  | ldBn | ldCn | ldDn | ldEn | ldHn | ldLn | ldAn
  -- rotates of the accumulator (R184)
  | rlca | rrca | rla | rra
  -- store of the stack pointer (R190)
  | ldIndNnSP
  -- 16-bit add (R195)
  | addHLBC | addHLDE | addHLHL | addHLSP
  -- relative jumps (R205)
  | jr | jrNZ | jrZ | jrNC | jrC
  -- the extended space (R80, R105)
  | extendedStub (low : Byte)
deriving DecidableEq, Repr

/-- The immediate bytes that follow an opcode (R70): none, one byte (`n` or `e`), or the 16-bit `nn`. -/
inductive Imm where
  | none
  | byte (v : Byte)
  | word (v : Word)
deriving DecidableEq, Repr

/-- An instruction as it stands in memory: the opcode and its immediate (R70, R73). -/
structure Code where
  instr : Instr
  imm   : Imm
deriving DecidableEq, Repr

end Sys2Proof
end

