-- ==== Sys2Proof/Decode.lean ====
section
/-! DEFINITION. Decoding an `op_in` and a byte list (R70 to R82), total and rejecting by name; the encoder; formats
and lengths. The decoder is written from the fields and tables of R72, R75, R76; the encoder from the opcode list of
R111: the two agree only if both are right. The tie of opcode numbers to instructions is the spec's decision D2. -/

namespace Sys2Proof

/-! ### Bytes and words -/

/-- `high(pair) = (pair >> 8) & 0xFF` (R21). -/
def Word.high (w : Word) : Byte := (w >>> 8).setWidth 8

/-- `low(pair) = pair & 0xFF` (R21). -/
def Word.low (w : Word) : Byte := w.setWidth 8

/-- `(hi << 8) | lo` (R53, R74). -/
def Word.join (hi lo : Byte) : Word := (hi.setWidth 16 <<< 8) ||| lo.setWidth 16

/-! ### Fields (R72) -/

def fieldX (op : Byte) : BitVec 2 := op.extractLsb' 6 2
def fieldY (op : Byte) : BitVec 3 := op.extractLsb' 3 3
def fieldZ (op : Byte) : BitVec 3 := op.extractLsb' 0 3
def fieldP (op : Byte) : BitVec 2 := op.extractLsb' 4 2
def fieldQ (op : Byte) : BitVec 1 := op.extractLsb' 3 1

/-! ### Tables indexed by fields (R75) -/

/-- `rp[p]` (R32). -/
def tableRp (p : BitVec 2) : Pair :=
  match p.toNat with
  | 0 => .bc
  | 1 => .de
  | 2 => .hl
  | _ => .sp

/-- `r[y]` (R34): index 6 selects no register. -/
def tableR (y : BitVec 3) : Option Reg8 :=
  match y.toNat with
  | 0 => some .b
  | 1 => some .c
  | 2 => some .d
  | 3 => some .e
  | 4 => some .h
  | 5 => some .l
  | 6 => none
  | _ => some .a

/-- `ind[p]` of `LD A,(..)` (R139). -/
def tableInd (p : BitVec 2) : Indirect :=
  match p.toNat with
  | 0 => .bc
  | 1 => .de
  | 2 => .hlInc
  | _ => .hlDec

/-! ### From a family and its operand to the instruction -/

def ldPairImm : Pair → Instr
  | .bc => .ldBCnn
  | .de => .ldDEnn
  | .hl => .ldHLnn
  | .sp => .ldSPnn

def addHL : Pair → Instr
  | .bc => .addHLBC
  | .de => .addHLDE
  | .hl => .addHLHL
  | .sp => .addHLSP

def incPair : Pair → Instr
  | .bc => .incBC
  | .de => .incDE
  | .hl => .incHL
  | .sp => .incSP

def decPair : Pair → Instr
  | .bc => .decBC
  | .de => .decDE
  | .hl => .decHL
  | .sp => .decSP

def ldAccInd : Indirect → Instr
  | .bc => .ldAIndBC
  | .de => .ldAIndDE
  | .hlInc => .ldAIndHLInc
  | .hlDec => .ldAIndHLDec

def incReg : Reg8 → Instr
  | .b => .incB
  | .c => .incC
  | .d => .incD
  | .e => .incE
  | .h => .incH
  | .l => .incL
  | .a => .incA

def decReg : Reg8 → Instr
  | .b => .decB
  | .c => .decC
  | .d => .decD
  | .e => .decE
  | .h => .decH
  | .l => .decL
  | .a => .decA

def ldRegImm : Reg8 → Instr
  | .b => .ldBn
  | .c => .ldCn
  | .d => .ldDn
  | .e => .ldEn
  | .h => .ldHn
  | .l => .ldLn
  | .a => .ldAn

/-- The store of the accumulator: only `p = 0` and `p = 1` have a handler (R138, R75). -/
def stAccInd : Pair → Option Instr
  | .bc => some .ldIndBCA
  | .de => some .ldIndDEA
  | .hl => none
  | .sp => none

/-- The rows of R76 with `z = 0`. -/
def decodeZ0 (y : BitVec 3) : Option Instr :=
  match y.toNat with
  | 0 => none
  | 1 => some .ldIndNnSP
  | 2 => none
  | 3 => some .jr
  | 4 => some .jrNZ
  | 5 => some .jrZ
  | 6 => some .jrNC
  | _ => some .jrC

/-- The rows of R76 with `z = 7`. -/
def decodeZ7 (y : BitVec 3) : Option Instr :=
  match y.toNat with
  | 0 => some .rlca
  | 1 => some .rrca
  | 2 => some .rla
  | 3 => some .rra
  | _ => none

/-- The plain space by fields (R76): `x` must be 0, `z` selects the family, `y`, `p`, `q` the variant. -/
def decodePlain (op : Byte) : Option Instr :=
  if fieldX op ≠ 0 then none
  else
    match (fieldZ op).toNat with
    | 0 => decodeZ0 (fieldY op)
    | 1 => some (if fieldQ op = 0 then ldPairImm (tableRp (fieldP op)) else addHL (tableRp (fieldP op)))
    | 2 => if fieldQ op = 0 then stAccInd (tableRp (fieldP op)) else some (ldAccInd (tableInd (fieldP op)))
    | 3 => some (if fieldQ op = 0 then incPair (tableRp (fieldP op)) else decPair (tableRp (fieldP op)))
    | 4 => (tableR (fieldY op)).map incReg
    | 5 => (tableR (fieldY op)).map decReg
    | 6 => (tableR (fieldY op)).map ldRegImm
    | _ => decodeZ7 (fieldY op)

/-- Classify and decode `op_in` under a set of admitted opcodes (R71, R78 to R80, R100): high byte `0xCB` is the
extended stub, any other non-zero high byte is unknown, a plain opcode must be admitted. `none` is an unknown opcode. -/
def decodeIn (admitted : Byte → Bool) (opIn : Word) : Option Instr :=
  if opIn.high = 0xCB then some (.extendedStub opIn.low)
  else if opIn.high ≠ 0x00 then none
  else if admitted opIn.low then decodePlain opIn.low
  else none

/-- The decoder of the block with `ADMITTED_OPCODES` at its default. -/
def decode (opIn : Word) : Option Instr := decodeIn Config.admitted opIn

/-! ### Formats and lengths (R73, R82) -/

def Instr.format : Instr → Format
  | .ldBCnn | .ldDEnn | .ldHLnn | .ldSPnn | .ldIndNnSP => .imm16
  | .ldIndBCA | .ldIndDEA | .ldAIndBC | .ldAIndDE | .ldAIndHLInc | .ldAIndHLDec => .implied
  | .incBC | .incDE | .incHL | .incSP | .decBC | .decDE | .decHL | .decSP => .implied
  | .incB | .incC | .incD | .incE | .incH | .incL | .incA => .implied
  | .decB | .decC | .decD | .decE | .decH | .decL | .decA => .implied
  | .ldBn | .ldCn | .ldDn | .ldEn | .ldHn | .ldLn | .ldAn => .imm8
  | .rlca | .rrca | .rla | .rra => .implied
  | .addHLBC | .addHLDE | .addHLHL | .addHLSP => .implied
  | .jr | .jrNZ | .jrZ | .jrNC | .jrC => .disp8
  | .extendedStub _ => .stub

/-- The number of bytes `PC` advances by (R73, R103); the stub has no length (R82). -/
def Format.length : Format → Nat
  | .implied => 1
  | .imm8 => 2
  | .disp8 => 2
  | .imm16 => 3
  | .stub => 0

def Instr.length (i : Instr) : Nat := i.format.length

/-! ### The encoder (R77, R111) -/

/-- The `op_in` of an instruction, as the dispatch table of R111 lists it. -/
def encode : Instr → Word
  | .ldBCnn => 0x0001
  | .ldIndBCA => 0x0002
  | .incBC => 0x0003
  | .incB => 0x0004
  | .decB => 0x0005
  | .ldBn => 0x0006
  | .rlca => 0x0007
  | .ldIndNnSP => 0x0008
  | .addHLBC => 0x0009
  | .ldAIndBC => 0x000A
  | .decBC => 0x000B
  | .incC => 0x000C
  | .decC => 0x000D
  | .ldCn => 0x000E
  | .rrca => 0x000F
  | .ldDEnn => 0x0011
  | .ldIndDEA => 0x0012
  | .incDE => 0x0013
  | .incD => 0x0014
  | .decD => 0x0015
  | .ldDn => 0x0016
  | .rla => 0x0017
  | .jr => 0x0018
  | .addHLDE => 0x0019
  | .ldAIndDE => 0x001A
  | .decDE => 0x001B
  | .incE => 0x001C
  | .decE => 0x001D
  | .ldEn => 0x001E
  | .rra => 0x001F
  | .jrNZ => 0x0020
  | .ldHLnn => 0x0021
  | .incHL => 0x0023
  | .incH => 0x0024
  | .decH => 0x0025
  | .ldHn => 0x0026
  | .jrZ => 0x0028
  | .addHLHL => 0x0029
  | .ldAIndHLInc => 0x002A
  | .decHL => 0x002B
  | .incL => 0x002C
  | .decL => 0x002D
  | .ldLn => 0x002E
  | .jrNC => 0x0030
  | .ldSPnn => 0x0031
  | .incSP => 0x0033
  | .jrC => 0x0038
  | .addHLSP => 0x0039
  | .ldAIndHLDec => 0x003A
  | .decSP => 0x003B
  | .incA => 0x003C
  | .decA => 0x003D
  | .ldAn => 0x003E
  | .extendedStub low => Word.join 0xCB low

/-- The opcode bytes of an `op_in` in memory order (R70, R71): one byte in the plain space, prefix and byte in the
extended space. -/
def opcodeBytes (opIn : Word) : List Byte :=
  if opIn.high = 0xCB then [0xCB, opIn.low] else [opIn.low]

/-- The immediate bytes in memory order, low byte first (R53, R73). -/
def Imm.bytes : Imm → List Byte
  | .none => []
  | .byte v => [v]
  | .word v => [v.low, v.high]

/-- The bytes of an instruction in memory (R70, R73). -/
def encodeBytes (c : Code) : List Byte := opcodeBytes (encode c.instr) ++ c.imm.bytes

/-! ### Decoding a byte list -/

/-- Why a byte list holds no instruction. -/
inductive DecodeError where
  /-- the list ends before the instruction does -/
  | truncated
  /-- the opcode has no case in the dispatcher (R79) -/
  | unknownOpcode (opIn : Word)
deriving DecidableEq, Repr

/-- The immediate a format takes from the bytes after the opcode (R73, R74), with the bytes that are left. -/
def takeImm : Format → List Byte → Except DecodeError (Imm × List Byte)
  | .implied, bs => .ok (.none, bs)
  | .stub, bs => .ok (.none, bs)
  | .imm8, v :: bs => .ok (.byte v, bs)
  | .disp8, v :: bs => .ok (.byte v, bs)
  | .imm16, lo :: hi :: bs => .ok (.word (Word.join hi lo), bs)
  | .imm8, [] => .error .truncated
  | .disp8, [] => .error .truncated
  | .imm16, [] => .error .truncated
  | .imm16, [_] => .error .truncated

/-- An `op_in` and the bytes after its opcode, read as one instruction. -/
def decodeWith (opIn : Word) (bs : List Byte) : Except DecodeError (Code × List Byte) :=
  match decode opIn with
  | none => .error (.unknownOpcode opIn)
  | some i =>
    match takeImm i.format bs with
    | .ok (imm, rest) => .ok (⟨i, imm⟩, rest)
    | .error e => .error e

/-- The first instruction of a byte list and the bytes after it (R70, R71, R109). -/
def decodeBytes : List Byte → Except DecodeError (Code × List Byte)
  | [] => .error .truncated
  | b0 :: bs =>
    if b0 = 0xCB then
      match bs with
      | [] => .error .truncated
      | b1 :: rest => decodeWith (Word.join 0xCB b1) rest
    else decodeWith (b0.setWidth 16) bs

/-! ### The opcode table's words -/

/-- The instruction read from a table word: `spec/opcode_table.json` numbers an instruction as its 16-bit `op_in`
(match and mask have 16 bits), so bits 15 to 0 are `op_in` and the immediate bytes, if the table gave them bits,
would count on from bit 16. -/
def decodeTableWord (_nbits w : Nat) : Option Instr := decode (BitVec.ofNat 16 w)

/-- The bytes of a table word in memory order: the opcode bytes, then immediate bytes from bits 23 to 16 and 31 to 24,
zeros up to the longest instruction. -/
def tableBytes (w : Nat) : List Byte :=
  opcodeBytes (BitVec.ofNat 16 w) ++ [BitVec.ofNat 8 (w / 2 ^ 16), BitVec.ofNat 8 (w / 2 ^ 24)]

end Sys2Proof
end

