-- ==== Sys2Proof/Machine/State.lean ====
section
/-! DEFINITION. The state of the block (R20, R36 to R38), the reasons a step stops, and the state after reset (R39). -/

namespace Sys2Proof.Machine

/-- Memory as plain data: the bytes written so far, by address. The canonical form is `Memory.wf` (Machine/Ops.lean);
an unlisted address reads as `Config.memInit` (log entry 1). -/
abbrev Memory := List Host.Cell

/-- The whole state (R37, R38): the six words of the Register File (R20) and Memory (R36). -/
structure State where
  /-- accumulator in bits 15 to 8, flags in bits 7 to 4, bits 3 to 0 zero (R20, R27, R29) -/
  af  : Word
  bc  : Word
  de  : Word
  hl  : Word
  /-- stack pointer, a plain word in this block (R35) -/
  sp  : Word
  /-- program counter: the address of the leading opcode byte (R26) -/
  pc  : Word
  mem : Memory
deriving DecidableEq, Repr

/-- The one error kind that can occur (R220). -/
inductive Fault where
  /-- Raised by the dispatcher, before any handler, for an `op_in` with no case (R79, R104, R221). The state is the
  state before it (R226), and a run ends here (R110). Safe: the block would accept another transaction, and the model
  only says nothing of it. -/
  | unknownOpcode (opIn : Word)
deriving DecidableEq, Repr

/-- The reasons an instruction has no meaning. -/
inductive Refusal where
  /-- Raised by an arm of `exec` for an instruction that has no meaning yet. Safe. No arm raises it now. -/
  | notModelled (mnemonic : String)
  /-- Raised by the extended stub, every `op_in` with high byte `0xCB`: "A model should treat the outcome as a refusal"
  (R105, R223). No state changes (`Machine.transact` says so). Safe. -/
  | extendedStub (opIn : Word)
deriving DecidableEq, Repr

/-- The state after `initialize` (R39, R240): every word zero, `PC` at the reset vector `0x0000`, no byte listed. -/
def State.reset : State :=
  { af := 0x0000, bc := 0x0000, de := 0x0000, hl := 0x0000, sp := 0x0000, pc := 0x0000, mem := [] }

end Sys2Proof.Machine
end

