-- ==== Sys2Proof/Machine/Ops.lean ====
section
/-! DEFINITION. The named operations over memory and registers, and the two ways a transaction ends other than `Done`. -/

namespace Sys2Proof.Machine

/-! ### Memory as a sorted list -/

/-- The byte listed at an address, if one is. -/
def Memory.lookup : Memory → Nat → Option Byte
  | [], _ => none
  | (k, b) :: m, a => if k = a then some b else Memory.lookup m a

/-- List a byte at an address, in place of the byte listed there before, keeping the addresses rising. -/
def Memory.insert : Memory → Nat → Byte → Memory
  | [], a, v => [(a, v)]
  | (k, b) :: m, a, v =>
    if a < k then (a, v) :: (k, b) :: m
    else if a = k then (a, v) :: m
    else (k, b) :: Memory.insert m a v

/-- The canonical form: addresses strictly rising, all inside the 65536 bytes of R50. -/
abbrev Memory.wf (m : Memory) : Prop :=
  m.Pairwise (fun c d => c.1 < d.1) ∧ ∀ c ∈ m, c.1 < 65536

/-- `MemRead(addr, 1)` (R51): the byte most recently written, or `MEM_INIT(addr)`. The ONE definition of what an
unlisted address reads as (log entry 1). -/
def State.readByte (s : State) (a : Word) : Byte :=
  (s.mem.lookup a.toNat).getD (Config.memInit a)

/-- `MemWrite(addr, 1, v)` (R51). -/
def State.writeByte (s : State) (a : Word) (v : Byte) : State :=
  { s with mem := s.mem.insert a.toNat v }

/-- `MemRead(addr, 2)`: low byte at `addr`, high byte at `(addr + 1) mod 2^16` (R53, R55). -/
def State.readWord (s : State) (a : Word) : Word :=
  Word.join (s.readByte (a + 1)) (s.readByte a)

/-- `MemWrite(addr, 2, v)`: the low byte first, then the high byte at `(addr + 1) mod 2^16` (R53, R55, R57). -/
def State.writeWord (s : State) (a : Word) (v : Word) : State :=
  (s.writeByte a v.low).writeByte (a + 1) v.high

/-! ### Registers -/

/-- Read a word of the Register File (R20). -/
def State.reg (s : State) : Reg16 → Word
  | .af => s.af
  | .bc => s.bc
  | .de => s.de
  | .hl => s.hl
  | .sp => s.sp
  | .pc => s.pc

/-- Write a word of the Register File (R20). No register is hardwired. -/
def State.setReg (s : State) (r : Reg16) (v : Word) : State :=
  match r with
  | .af => { s with af := v }
  | .bc => { s with bc := v }
  | .de => { s with de := v }
  | .hl => { s with hl := v }
  | .sp => { s with sp := v }
  | .pc => { s with pc := v }

/-- `setHigh(pair, v) = (v << 8) | (pair & 0x00FF)` (R22). -/
def setHigh (w : Word) (v : Byte) : Word := (v.setWidth 16 <<< 8) ||| (w &&& 0x00FF)

/-- `setLow(pair, v) = (pair & 0xFF00) | v` (R22). -/
def setLow (w : Word) (v : Byte) : Word := (w &&& 0xFF00) ||| v.setWidth 16

/-- One half of a word (R21). -/
def halfOf (w : Word) : Half → Byte
  | .high => w.high
  | .low => w.low

/-- A word with one half replaced (R22). -/
def setHalfOf (w : Word) : Half → Byte → Word
  | .high, v => setHigh w v
  | .low, v => setLow w v

/-- Read a half of a register (R21). -/
def State.half (s : State) (r : Reg16) (h : Half) : Byte := halfOf (s.reg r) h

/-- Write a half of a register: a read-modify-write of the parent word (R22). -/
def State.setHalf (s : State) (r : Reg16) (h : Half) (v : Byte) : State :=
  s.setReg r (setHalfOf (s.reg r) h v)

/-- The accumulator, the high half of `AF` (R23). -/
def State.a (s : State) : Byte := s.half .af .high

/-- The flags byte, the low half of `AF` (R23). -/
def State.f (s : State) : Byte := s.half .af .low

/-- Write the accumulator; `F` is kept (R22). -/
def State.setA (s : State) (v : Byte) : State := s.setHalf .af .high v

/-! ### `initialize` -/

/-- The `initialize` transaction (R240): every word zero; Memory is left as it is (R242, D19; log entry 9). -/
def State.initialise (s : State) : State :=
  { s with af := 0, bc := 0, de := 0, hl := 0, sp := 0, pc := 0 }

/-! ### How a transaction ends -/

/-- The dispatcher's advance of `PC` by the instruction's length, after the handler (R103). -/
def State.advancePC (s : State) (f : Format) : State :=
  s.setReg .pc (s.reg .pc + BitVec.ofNat 16 f.length)

/-- `Done` for an instruction whose handler does not set `PC` (R103). -/
def finish (f : Format) (s : State) : Host.Outcome State Fault Refusal := .next (s.advancePC f)

/-- `Done` for a handler that sets `PC` itself (R103, R205). -/
def finishJump (s : State) : Host.Outcome State Fault Refusal := .next s

/-- `raise UnknownOpcode(op)` (R10, R104, R226): nothing is saved, no handler is entered. It is the only exception of
the block, and there is no return from it (R227). -/
def raiseUnknownOpcode (opIn : Word) : Host.Outcome State Fault Refusal := .fault (.unknownOpcode opIn)

/-- The outcome `ExtendedStub(op_in)`, which "a model should treat as a refusal" (R105). -/
def refuseExtendedStub (opIn : Word) : Host.Outcome State Fault Refusal := .refused (.extendedStub opIn)

end Sys2Proof.Machine
end

