-- ==== Sys2Proof/Machine/Flags.lean ====
section
/-! DEFINITION. The Flags Model (R27 to R31): masks, the three operations, dispositions, and every flag condition the
instruction rules compute. -/

namespace Sys2Proof.Machine

/-- The mask of a flag in the word `AF` (R27). -/
def flagMask : Flag → Word
  | .z => 0x0080
  | .n => 0x0040
  | .h => 0x0020
  | .c => 0x0010

/-- `set(flag)` (R28). -/
def flagSet (af : Word) (f : Flag) : Word := af ||| flagMask f

/-- `clear(flag)` (R28), the complement taken at 16 bits. -/
def flagClear (af : Word) (f : Flag) : Word := af &&& ~~~ flagMask f

/-- `isSet(flag)` (R28). -/
def flagIsSet (af : Word) (f : Flag) : Bool := (af &&& flagMask f) != 0

/-- A flag of the state. -/
def State.flag (s : State) (f : Flag) : Bool := flagIsSet s.af f

/-- What a handler declares for a flag (R30). -/
inductive Disposition where
  | set
  | clear
  | setIf (cond : Bool)
  | unchanged
deriving DecidableEq, Repr

/-- A disposition carried out with the operations of R28. -/
def Disposition.apply (d : Disposition) (f : Flag) (af : Word) : Word :=
  match d with
  | .set => flagSet af f
  | .clear => flagClear af f
  | .setIf true => flagSet af f
  | .setIf false => flagClear af f
  | .unchanged => af

/-- The declaration of a handler, one disposition per flag (R30). -/
structure FlagDecl where
  z : Disposition
  n : Disposition
  h : Disposition
  c : Disposition
deriving DecidableEq, Repr

/-- Carry out a handler's declaration. -/
def State.declareFlags (s : State) (d : FlagDecl) : State :=
  s.setReg .af (d.c.apply .c (d.h.apply .h (d.n.apply .n (d.z.apply .z (s.reg .af)))))

/-! ### Conditions -/

/-- Half-carry of `INC r`: a carry out of bit 3 of the old value (R150, C2). -/
def incHalfCarry (v : Byte) : Bool := (v &&& 0x0F) == 0x0F

/-- Half-carry of `DEC r`: a borrow into bit 3 of the old value (R150, C2). -/
def decHalfCarry (v : Byte) : Bool := (v &&& 0x0F) == 0x00

/-- Half-carry of `ADD HL,rr`: the carry out of bit 11, on the operands with the 12-bit mask (R195, C1). -/
def addHalfCarry (a b : Word) : Bool := decide ((a &&& 0x0FFF).toNat + (b &&& 0x0FFF).toNat > 0x0FFF)

/-- Carry of `ADD HL,rr`: the carry out of bit 15 (R195). -/
def addCarry (a b : Word) : Bool := decide (a.toNat + b.toNat > 0xFFFF)

/-- The flags of `INC r` for the old value and the result (R150). -/
def incFlags (v res : Byte) : FlagDecl :=
  { z := .setIf (res == 0), n := .clear, h := .setIf (incHalfCarry v), c := .unchanged }

/-- The flags of `DEC r` for the old value and the result (R150). -/
def decFlags (v res : Byte) : FlagDecl :=
  { z := .setIf (res == 0), n := .set, h := .setIf (decHalfCarry v), c := .unchanged }

/-- The flags of `ADD HL,rr` for its operands (R195). -/
def addFlags (a b : Word) : FlagDecl :=
  { z := .unchanged, n := .clear, h := .setIf (addHalfCarry a b), c := .setIf (addCarry a b) }

/-- The flags of a rotate for the bit shifted off (R184). -/
def rotateFlags (out : Bool) : FlagDecl :=
  { z := .clear, n := .clear, h := .clear, c := .setIf out }

end Sys2Proof.Machine
end

