-- ==== Sys2Proof/Machine/Operands.lean ====
section
/-! DEFINITION. Every operand form: the selected pair, the selected half, the indirect address with its modification
afterwards, the three immediates, the jump condition. -/

namespace Sys2Proof.Machine

/-- The word a selected pair names (R32, R33): the word itself, not a copy. -/
def pairReg : Pair → Reg16
  | .bc => .bc
  | .de => .de
  | .hl => .hl
  | .sp => .sp

/-- The word of an 8-bit register (R34). -/
def reg8Word : Reg8 → Reg16
  | .b => .bc
  | .c => .bc
  | .d => .de
  | .e => .de
  | .h => .hl
  | .l => .hl
  | .a => .af

/-- The half of an 8-bit register (R34). -/
def reg8Half : Reg8 → Half
  | .b => .high
  | .c => .low
  | .d => .high
  | .e => .low
  | .h => .high
  | .l => .low
  | .a => .high

/-- `r[y]` read (R34). -/
def State.reg8 (s : State) (r : Reg8) : Byte := s.half (reg8Word r) (reg8Half r)

/-- `r[y]` written; the other half of the pair is kept (R22, R34). -/
def State.setReg8 (s : State) (r : Reg8) (v : Byte) : State := s.setHalf (reg8Word r) (reg8Half r) v

/-- The word that addresses memory in `LD A,(..)` (R139). -/
def indirectReg : Indirect → Reg16
  | .bc => .bc
  | .de => .de
  | .hlInc => .hl
  | .hlDec => .hl

/-- What the addressing word holds afterwards (R139): plus 1, minus 1, or unchanged, modulo 2^16. -/
def indirectAfter : Indirect → Word → Word
  | .bc, addr => addr
  | .de, addr => addr
  | .hlInc, addr => addr + 1
  | .hlDec, addr => addr - 1

/-- The address of the byte after the opcode (R55, R74). -/
def State.operandAddr (s : State) : Word := s.reg .pc + 1

/-- The immediate byte `n` or `e` at `PC + 1` (R74). -/
def State.imm8 (s : State) : Byte := s.readByte s.operandAddr

/-- The 16-bit immediate `nn` at `PC + 1`, `PC + 2`, low byte first (R53, R74). -/
def State.imm16 (s : State) : Word := s.readWord s.operandAddr

/-- The displacement `e`, sign-extended to 16 bits (R74). -/
def State.disp (s : State) : Word := s.imm8.signExtend 16

/-- The condition of a relative jump (R205); `none` is the unconditional form. -/
def State.holds (s : State) : Option Cond → Bool
  | none => true
  | some .nz => ! s.flag .z
  | some .z => s.flag .z
  | some .nc => ! s.flag .c
  | some .c => s.flag .c

end Sys2Proof.Machine
end

