-- ==== Sys2Proof/Machine/AddHL.lean ====
section
/-! DEFINITION. 16-bit add `ADD HL,rr` (48_add_hl.md). -/

namespace Sys2Proof.Machine

/-- `addPairs(HL, src)` (R195): both operands are read before `HL` is written, so `src` may be `HL` (R33). -/
def addPairs (p : Pair) (s : State) : State :=
  (s.setReg .hl (s.reg .hl + s.reg (pairReg p))).declareFlags (addFlags (s.reg .hl) (s.reg (pairReg p)))


/-- `ADD HL,BC` (R196). -/
def execAddHLBC (s : State) : Host.Outcome State Fault Refusal := finish .implied (addPairs .bc s)

/-- `ADD HL,DE` (R197). -/
def execAddHLDE (s : State) : Host.Outcome State Fault Refusal := finish .implied (addPairs .de s)

/-- `ADD HL,HL` (R198). -/
def execAddHLHL (s : State) : Host.Outcome State Fault Refusal := finish .implied (addPairs .hl s)

/-- `ADD HL,SP` (R199). -/
def execAddHLSP (s : State) : Host.Outcome State Fault Refusal := finish .implied (addPairs .sp s)

end Sys2Proof.Machine
end

