-- ==== Sys2Proof/Machine/Extended.lean ====
section
/-! DEFINITION. The extended space, `op_in` with high byte `0xCB` (40_dispatch.md R105). -/

namespace Sys2Proof.Machine

/-- Every `0xCB`-prefixed opcode behaves alike (R80): no state changes and the outcome is `ExtendedStub(op_in)`, which
"a model should treat as a refusal" (R105). Log entry 4. -/
def execExtendedStub (low : Byte) (_s : State) : Host.Outcome State Fault Refusal :=
  refuseExtendedStub (Word.join 0xCB low)


end Sys2Proof.Machine
end

