-- ==== Sys2Proof/Machine/IncDec8.lean ====
section
/-! DEFINITION. 8-bit increment and decrement `INC r`, `DEC r` (44_incdec8.md). -/

namespace Sys2Proof.Machine

/-- `incReg8(pair, half)` (R150): modulo 256, confined to the one half; flags on the value before the update. -/
def incReg8 (r : Reg8) (s : State) : State :=
  (s.setReg8 r (s.reg8 r + 1)).declareFlags (incFlags (s.reg8 r) (s.reg8 r + 1))

/-- `decReg8(pair, half)` (R150): modulo 256, confined to the one half; flags on the value before the update. -/
def decReg8 (r : Reg8) (s : State) : State :=
  (s.setReg8 r (s.reg8 r - 1)).declareFlags (decFlags (s.reg8 r) (s.reg8 r - 1))


/-- `INC B` (R151). -/
def execIncB (s : State) : Host.Outcome State Fault Refusal := finish .implied (incReg8 .b s)

/-- `INC C` (R152). -/
def execIncC (s : State) : Host.Outcome State Fault Refusal := finish .implied (incReg8 .c s)

/-- `INC D` (R153). -/
def execIncD (s : State) : Host.Outcome State Fault Refusal := finish .implied (incReg8 .d s)

/-- `INC E` (R154). -/
def execIncE (s : State) : Host.Outcome State Fault Refusal := finish .implied (incReg8 .e s)

/-- `INC H` (R155). -/
def execIncH (s : State) : Host.Outcome State Fault Refusal := finish .implied (incReg8 .h s)

/-- `INC L` (R156). -/
def execIncL (s : State) : Host.Outcome State Fault Refusal := finish .implied (incReg8 .l s)

/-- `INC A` (R157). -/
def execIncA (s : State) : Host.Outcome State Fault Refusal := finish .implied (incReg8 .a s)

/-- `DEC B` (R158). -/
def execDecB (s : State) : Host.Outcome State Fault Refusal := finish .implied (decReg8 .b s)

/-- `DEC C` (R159). -/
def execDecC (s : State) : Host.Outcome State Fault Refusal := finish .implied (decReg8 .c s)

/-- `DEC D` (R160). -/
def execDecD (s : State) : Host.Outcome State Fault Refusal := finish .implied (decReg8 .d s)

/-- `DEC E` (R161). -/
def execDecE (s : State) : Host.Outcome State Fault Refusal := finish .implied (decReg8 .e s)

/-- `DEC H` (R162). -/
def execDecH (s : State) : Host.Outcome State Fault Refusal := finish .implied (decReg8 .h s)

/-- `DEC L` (R163). -/
def execDecL (s : State) : Host.Outcome State Fault Refusal := finish .implied (decReg8 .l s)

/-- `DEC A` (R164). -/
def execDecA (s : State) : Host.Outcome State Fault Refusal := finish .implied (decReg8 .a s)

end Sys2Proof.Machine
end

