-- ==== Sys2Proof/Machine/IncDecPair.lean ====
section
/-! DEFINITION. 16-bit increment and decrement `INC rr`, `DEC rr` (43_incdec16.md). -/

namespace Sys2Proof.Machine

/-- `incPair(pair)` (R140): modulo 2^16, no flag. -/
def incPairWord (p : Pair) (s : State) : State := s.setReg (pairReg p) (s.reg (pairReg p) + 1)

/-- `decPair(pair)` (R140): modulo 2^16, no flag. -/
def decPairWord (p : Pair) (s : State) : State := s.setReg (pairReg p) (s.reg (pairReg p) - 1)


/-- `INC BC` (R141). -/
def execIncBC (s : State) : Host.Outcome State Fault Refusal := finish .implied (incPairWord .bc s)

/-- `INC DE` (R142). -/
def execIncDE (s : State) : Host.Outcome State Fault Refusal := finish .implied (incPairWord .de s)

/-- `INC HL` (R143). -/
def execIncHL (s : State) : Host.Outcome State Fault Refusal := finish .implied (incPairWord .hl s)

/-- `INC SP` (R144). -/
def execIncSP (s : State) : Host.Outcome State Fault Refusal := finish .implied (incPairWord .sp s)

/-- `DEC BC` (R145). -/
def execDecBC (s : State) : Host.Outcome State Fault Refusal := finish .implied (decPairWord .bc s)

/-- `DEC DE` (R146). -/
def execDecDE (s : State) : Host.Outcome State Fault Refusal := finish .implied (decPairWord .de s)

/-- `DEC HL` (R147). -/
def execDecHL (s : State) : Host.Outcome State Fault Refusal := finish .implied (decPairWord .hl s)

/-- `DEC SP` (R148). -/
def execDecSP (s : State) : Host.Outcome State Fault Refusal := finish .implied (decPairWord .sp s)

end Sys2Proof.Machine
end

