-- ==== Sys2Proof/Machine/Indirect.lean ====
section
/-! DEFINITION. Accumulator stores and loads through a pair (42_ld_indirect_a.md). -/

namespace Sys2Proof.Machine

/-- `storeAccToMemory(pair)` (R138). -/
def storeAccToMemory (p : Pair) (s : State) : State := s.writeByte (s.reg (pairReg p)) s.a

/-- `loadAccIndirect(pair, mode)` (R139): the address is the word before its modification. -/
def loadAccIndirect (ind : Indirect) (s : State) : State :=
  (s.setA (s.readByte (s.reg (indirectReg ind)))).setReg (indirectReg ind)
    (indirectAfter ind (s.reg (indirectReg ind)))

/-- `LD (BC),A` (R130). -/
def execLdIndBCA (s : State) : Host.Outcome State Fault Refusal := finish .implied (storeAccToMemory .bc s)

/-- `LD (DE),A` (R131). -/
def execLdIndDEA (s : State) : Host.Outcome State Fault Refusal := finish .implied (storeAccToMemory .de s)

/-- `LD A,(BC)` (R132). -/
def execLdAIndBC (s : State) : Host.Outcome State Fault Refusal := finish .implied (loadAccIndirect .bc s)

/-- `LD A,(DE)` (R133). -/
def execLdAIndDE (s : State) : Host.Outcome State Fault Refusal := finish .implied (loadAccIndirect .de s)

/-- `LD A,(HL+)` (R134). -/
def execLdAIndHLInc (s : State) : Host.Outcome State Fault Refusal := finish .implied (loadAccIndirect .hlInc s)

/-- `LD A,(HL-)` (R135). -/
def execLdAIndHLDec (s : State) : Host.Outcome State Fault Refusal := finish .implied (loadAccIndirect .hlDec s)

end Sys2Proof.Machine
end

