-- ==== Sys2Proof/Machine/JumpRelative.lean ====
section
/-! DEFINITION. Relative jumps `JR e`, `JR cc,e` (49_jr.md). -/

namespace Sys2Proof.Machine

/-- `jumpRelative(condition)` (R205): the handler sets `PC` in both branches, past its own two bytes, plus the
displacement if the condition holds. -/
def jumpRelative (cond : Option Cond) (s : State) : State :=
  s.setReg .pc (if s.holds cond then s.reg .pc + 2 + s.disp else s.reg .pc + 2)


/-- `JR e` (R206). -/
def execJr (s : State) : Host.Outcome State Fault Refusal := finishJump (jumpRelative none s)

/-- `JR NZ,e` (R207). -/
def execJrNZ (s : State) : Host.Outcome State Fault Refusal := finishJump (jumpRelative (some .nz) s)

/-- `JR Z,e` (R208). -/
def execJrZ (s : State) : Host.Outcome State Fault Refusal := finishJump (jumpRelative (some .z) s)

/-- `JR NC,e` (R209). -/
def execJrNC (s : State) : Host.Outcome State Fault Refusal := finishJump (jumpRelative (some .nc) s)

/-- `JR C,e` (R210). -/
def execJrC (s : State) : Host.Outcome State Fault Refusal := finishJump (jumpRelative (some .c) s)

end Sys2Proof.Machine
end

