-- ==== Sys2Proof/Machine/LoadImm8.lean ====
section
/-! DEFINITION. 8-bit immediate loads `LD r,n` (45_ld_r_imm8.md). -/

namespace Sys2Proof.Machine

/-- `loadImmediate8(pair, half)` (R177). -/
def loadImmediate8 (r : Reg8) (s : State) : State := s.setReg8 r s.imm8


/-- `LD B,n` (R170). -/
def execLdBn (s : State) : Host.Outcome State Fault Refusal := finish .imm8 (loadImmediate8 .b s)

/-- `LD C,n` (R171). -/
def execLdCn (s : State) : Host.Outcome State Fault Refusal := finish .imm8 (loadImmediate8 .c s)

/-- `LD D,n` (R172). -/
def execLdDn (s : State) : Host.Outcome State Fault Refusal := finish .imm8 (loadImmediate8 .d s)

/-- `LD E,n` (R173). -/
def execLdEn (s : State) : Host.Outcome State Fault Refusal := finish .imm8 (loadImmediate8 .e s)

/-- `LD H,n` (R174). -/
def execLdHn (s : State) : Host.Outcome State Fault Refusal := finish .imm8 (loadImmediate8 .h s)

/-- `LD L,n` (R175). -/
def execLdLn (s : State) : Host.Outcome State Fault Refusal := finish .imm8 (loadImmediate8 .l s)

/-- `LD A,n` (R176). -/
def execLdAn (s : State) : Host.Outcome State Fault Refusal := finish .imm8 (loadImmediate8 .a s)

end Sys2Proof.Machine
end

