-- ==== Sys2Proof/Machine/LoadPair.lean ====
section
/-! DEFINITION. 16-bit immediate loads `LD rr,nn` (41_ld_pair_imm.md). -/

namespace Sys2Proof.Machine

/-- `loadPairImmediate(pair)` (R120). -/
def loadPairImmediate (p : Pair) (s : State) : State := s.setReg (pairReg p) s.imm16

/-- `LD BC,nn` (R121). -/
def execLdBCnn (s : State) : Host.Outcome State Fault Refusal := finish .imm16 (loadPairImmediate .bc s)

/-- `LD DE,nn` (R122). -/
def execLdDEnn (s : State) : Host.Outcome State Fault Refusal := finish .imm16 (loadPairImmediate .de s)

/-- `LD HL,nn` (R123). -/
def execLdHLnn (s : State) : Host.Outcome State Fault Refusal := finish .imm16 (loadPairImmediate .hl s)

/-- `LD SP,nn` (R124). -/
def execLdSPnn (s : State) : Host.Outcome State Fault Refusal := finish .imm16 (loadPairImmediate .sp s)

end Sys2Proof.Machine
end

