-- ==== Sys2Proof/Machine/Rotate.lean ====
section
/-! DEFINITION. Rotates of the accumulator (46_rotate_a.md). -/

namespace Sys2Proof.Machine

/-- A bit as a byte, in bit 0. -/
def bitByte (b : Bool) : Byte := (BitVec.ofBool b).setWidth 8

/-- `rotateLeftCarry(A)` (R184): `A[7]` is shifted off; bit 0 takes it, or the old carry with `useCarry`. -/
def rotateLeftCarry (useCarry : Bool) (s : State) : State :=
  (s.setA ((s.a <<< 1) ||| bitByte (if useCarry then s.flag .c else s.a.getLsbD 7))).declareFlags
    (rotateFlags (s.a.getLsbD 7))

/-- `rotateRightCarry(A)` (R184): `A[0]` is shifted off; bit 7 takes it, or the old carry with `useCarry`. -/
def rotateRightCarry (useCarry : Bool) (s : State) : State :=
  (s.setA ((s.a >>> 1) ||| (bitByte (if useCarry then s.flag .c else s.a.getLsbD 0) <<< 7))).declareFlags
    (rotateFlags (s.a.getLsbD 0))


/-- `RLCA` (R180). -/
def execRlca (s : State) : Host.Outcome State Fault Refusal := finish .implied (rotateLeftCarry false s)

/-- `RRCA` (R181). -/
def execRrca (s : State) : Host.Outcome State Fault Refusal := finish .implied (rotateRightCarry false s)

/-- `RLA` (R182). -/
def execRla (s : State) : Host.Outcome State Fault Refusal := finish .implied (rotateLeftCarry true s)

/-- `RRA` (R183). -/
def execRra (s : State) : Host.Outcome State Fault Refusal := finish .implied (rotateRightCarry true s)

end Sys2Proof.Machine
end

