-- ==== Sys2Proof/Machine/StoreSP.lean ====
section
/-! DEFINITION. Store of the stack pointer `LD (nn),SP` (47_ld_nn_sp.md). -/

namespace Sys2Proof.Machine

/-- `storeSPToMemory` (R190): both immediate bytes are read before either write; the address is `nn`, not `PC` (C3). -/
def storeSPToMemory (s : State) : State := s.writeWord s.imm16 (s.reg .sp)


/-- `LD (nn),SP` (R190). -/
def execLdIndNnSP (s : State) : Host.Outcome State Fault Refusal := finish .imm16 (storeSPToMemory s)

end Sys2Proof.Machine
end

