-- ==== Sys2Proof/Machine/Dispatch.lean ====
section
/-! DEFINITION. The opcode dispatcher's handler selection (R100): one arm per instruction, in the order of the opcode table. -/

namespace Sys2Proof.Machine

def exec (i : Instr) (s : State) : Host.Outcome State Fault Refusal :=
  match i with
  | .ldBCnn => Sys2Proof.Machine.execLdBCnn s
  | .ldIndBCA => Sys2Proof.Machine.execLdIndBCA s
  | .incBC => Sys2Proof.Machine.execIncBC s
  | .incB => Sys2Proof.Machine.execIncB s
  | .decB => Sys2Proof.Machine.execDecB s
  | .ldBn => Sys2Proof.Machine.execLdBn s
  | .rlca => Sys2Proof.Machine.execRlca s
  | .ldIndNnSP => Sys2Proof.Machine.execLdIndNnSP s
  | .addHLBC => Sys2Proof.Machine.execAddHLBC s
  | .ldAIndBC => Sys2Proof.Machine.execLdAIndBC s
  | .decBC => Sys2Proof.Machine.execDecBC s
  | .incC => Sys2Proof.Machine.execIncC s
  | .decC => Sys2Proof.Machine.execDecC s
  | .ldCn => Sys2Proof.Machine.execLdCn s
  | .rrca => Sys2Proof.Machine.execRrca s
  | .ldDEnn => Sys2Proof.Machine.execLdDEnn s
  | .ldIndDEA => Sys2Proof.Machine.execLdIndDEA s
  | .incDE => Sys2Proof.Machine.execIncDE s
  | .incD => Sys2Proof.Machine.execIncD s
  | .decD => Sys2Proof.Machine.execDecD s
  | .ldDn => Sys2Proof.Machine.execLdDn s
  | .rla => Sys2Proof.Machine.execRla s
  | .jr => Sys2Proof.Machine.execJr s
  | .addHLDE => Sys2Proof.Machine.execAddHLDE s
  | .ldAIndDE => Sys2Proof.Machine.execLdAIndDE s
  | .decDE => Sys2Proof.Machine.execDecDE s
  | .incE => Sys2Proof.Machine.execIncE s
  | .decE => Sys2Proof.Machine.execDecE s
  | .ldEn => Sys2Proof.Machine.execLdEn s
  | .rra => Sys2Proof.Machine.execRra s
  | .jrNZ => Sys2Proof.Machine.execJrNZ s
  | .ldHLnn => Sys2Proof.Machine.execLdHLnn s
  | .incHL => Sys2Proof.Machine.execIncHL s
  | .incH => Sys2Proof.Machine.execIncH s
  | .decH => Sys2Proof.Machine.execDecH s
  | .ldHn => Sys2Proof.Machine.execLdHn s
  | .jrZ => Sys2Proof.Machine.execJrZ s
  | .addHLHL => Sys2Proof.Machine.execAddHLHL s
  | .ldAIndHLInc => Sys2Proof.Machine.execLdAIndHLInc s
  | .decHL => Sys2Proof.Machine.execDecHL s
  | .incL => Sys2Proof.Machine.execIncL s
  | .decL => Sys2Proof.Machine.execDecL s
  | .ldLn => Sys2Proof.Machine.execLdLn s
  | .jrNC => Sys2Proof.Machine.execJrNC s
  | .ldSPnn => Sys2Proof.Machine.execLdSPnn s
  | .incSP => Sys2Proof.Machine.execIncSP s
  | .jrC => Sys2Proof.Machine.execJrC s
  | .addHLSP => Sys2Proof.Machine.execAddHLSP s
  | .ldAIndHLDec => Sys2Proof.Machine.execLdAIndHLDec s
  | .decSP => Sys2Proof.Machine.execDecSP s
  | .incA => Sys2Proof.Machine.execIncA s
  | .decA => Sys2Proof.Machine.execDecA s
  | .ldAn => Sys2Proof.Machine.execLdAn s
  | .extendedStub low => Sys2Proof.Machine.execExtendedStub low s

end Sys2Proof.Machine
end

