-- ==== Sys2Proof/Machine/Fetch.lean ====
section
/-! DEFINITION. The reference fetch (R109) and the layout of bytes where it fetches. -/

namespace Sys2Proof.Machine

/-- The `op_in` the reference fetch forms at `PC` (R109): the byte there, zero-extended, or `0xCB` with the next byte. -/
def State.fetchOpIn (s : State) : Word :=
  if s.readByte s.pc = 0xCB then Word.join 0xCB (s.readByte (s.pc + 1))
  else (s.readByte s.pc).setWidth 16

/-- The loader's writes of bytes at ascending addresses (R65). -/
def State.writeBytes (s : State) (a : Word) : List Byte → State
  | [] => s
  | b :: bs => (s.writeByte a b).writeBytes (a + 1) bs

/-- The bytes at ascending addresses from `a`. -/
def State.readBytes (s : State) (a : Word) : Nat → List Byte
  | 0 => []
  | n + 1 => s.readByte a :: s.readBytes (a + 1) n

end Sys2Proof.Machine
end

