-- ==== Sys2Proof/Machine/Transaction.lean ====
section
/-! DEFINITION. The `execute` transaction (R100, R101): as a step with the host's three outcomes, and as the spec words
it, an end state with one of its own three outcomes. -/

namespace Sys2Proof.Machine

/-- `execute(op_in)` under a set of admitted opcodes (R9, R78, R100). -/
def executeIn (admitted : Byte → Bool) (opIn : Word) (s : State) : Host.Outcome State Fault Refusal :=
  match decodeIn admitted opIn with
  | some i => exec i s
  | none => raiseUnknownOpcode opIn

/-- `execute(op_in)` (R100). The instruction named by `op_in` executes; the byte at `PC` is not looked at (R107). -/
def execute (opIn : Word) (s : State) : Host.Outcome State Fault Refusal := executeIn Config.admitted opIn s

/-- The outcomes of a transaction (R101). -/
inductive TxOutcome where
  | done
  | unknownOpcode (opIn : Word)
  | extendedStub (opIn : Word)
deriving DecidableEq, Repr

/-- What the spec says of the diagnostic given to `DIAG`. -/
inductive Diagnostic where
  /-- no diagnostic -/
  | silent
  /-- a message identifying this opcode value (R104) -/
  | identifies (opIn : Word)
  /-- the spec does not say whether one is emitted (R105, C8) -/
  | notSpecified
deriving DecidableEq, Repr

/-- The diagnostic of an outcome (R104, R105, R231); only the value is specified (D12). -/
def TxOutcome.diagnostic : TxOutcome → Diagnostic
  | .done => .silent
  | .unknownOpcode opIn => .identifies opIn
  | .extendedStub _ => .notSpecified

/-- A transaction's end state and outcome. -/
structure TxResult where
  state   : State
  outcome : TxOutcome
deriving DecidableEq, Repr

/-- The transaction with its end state: an unknown opcode and the stub change nothing (R104, R105, R226). -/
def transact (opIn : Word) (s : State) : TxResult :=
  match execute opIn s with
  | .next t => { state := t, outcome := .done }
  | .fault (.unknownOpcode op) => { state := s, outcome := .unknownOpcode op }
  | .refused _ => { state := s, outcome := .extendedStub opIn }

end Sys2Proof.Machine
end

