-- ==== Sys2Proof/Machine/Step.lean ====
section
/-! DEFINITION. One step of a run (R110): the reference fetch, then `execute`. -/

namespace Sys2Proof.Machine

/-- One step: `op_in` formed from Memory at `PC` (R109), then `execute(op_in)` (R100). A fault or a refusal ends the run
with the state unchanged (R110). -/
def step (s : State) : Host.Outcome State Fault Refusal := execute s.fetchOpIn s

/-- The state with a table word's instruction stored where `step` fetches next, its immediate bytes after it. -/
def State.withFetchWord (s : State) (_nbits w : Nat) : State := s.writeBytes s.pc (tableBytes w)

end Sys2Proof.Machine
end

