-- ==== Sys2Proof/Machine/HostPort.lean ====
section
/-! DEFINITION. What the host may do between transactions (R7, R65), and its one duty on register writes (R29, D15). -/

namespace Sys2Proof.Machine

/-- A move of the host: one of the four of R7. Reads change nothing and need no move. -/
inductive HostMove where
  | callInitialize
  | pokeByte (a : Word) (v : Byte)
  | pokeReg (r : Reg16) (v : Word)
  | callExecute (opIn : Word)
deriving DecidableEq, Repr

/-- The host's duty: a write of `AF` keeps bits 3 to 0 zero (R29, D15). -/
def HostMove.legal : HostMove → Bool
  | .pokeReg .af v => v &&& 0x000F == 0
  | .pokeReg _ _ => true
  | .callInitialize => true
  | .pokeByte _ _ => true
  | .callExecute _ => true

/-- The state after a move. -/
def HostMove.act (s : State) : HostMove → State
  | .callInitialize => s.initialise
  | .pokeByte a v => s.writeByte a v
  | .pokeReg r v => s.setReg r v
  | .callExecute opIn => (transact opIn s).state

end Sys2Proof.Machine
end

