-- ==== Sys2Proof/WellFormed.lean ====
section
/-! DEFINITION. Well-formedness of an instruction with its immediate: the immediate is the one the format takes (R73),
and the opcode is in the set of admitted opcodes (R78, R81). -/

namespace Sys2Proof

/-- The immediate fits the format (R73): none for `I` and the stub, one byte for `N` and `E`, a word for `W`. -/
def Imm.fits : Imm → Format → Bool
  | .none, .implied => true
  | .none, .stub => true
  | .none, .imm8 => false
  | .none, .disp8 => false
  | .none, .imm16 => false
  | .byte _, .implied => false
  | .byte _, .stub => false
  | .byte _, .imm8 => true
  | .byte _, .disp8 => true
  | .byte _, .imm16 => false
  | .word _, .implied => false
  | .word _, .stub => false
  | .word _, .imm8 => false
  | .word _, .disp8 => false
  | .word _, .imm16 => true

/-- The instruction's opcode has a case in a dispatcher that admits `admitted` (R78, R80). -/
def Instr.admittedIn (admitted : Byte → Bool) (i : Instr) : Bool :=
  i.format == .stub || admitted (encode i).low

def Code.wfIn (admitted : Byte → Bool) (c : Code) : Bool :=
  c.imm.fits c.instr.format && c.instr.admittedIn admitted

/-- Well-formed under the block's own set of admitted opcodes. -/
def Code.wf (c : Code) : Bool := c.wfIn Config.admitted

end Sys2Proof
end

