-- ==== Sys2Proof/Safety.lean ====
section
/-! DEFINITION. The terms claims are stated in: states inside the spec, what two states share, runs and their ends, and
the documented tables of what an instruction writes. -/

namespace Sys2Proof.Machine

/-! ### States inside the spec -/

/-- `AF[3:0] = 0` (R29); a state where it fails is outside the spec (D15). -/
abbrev State.lowNibbleClear (s : State) : Prop := s.af &&& 0x000F = 0

/-- The invariant of the model: Memory in canonical form, `AF[3:0] = 0` (R29). -/
abbrev State.Inv (s : State) : Prop := s.mem.wf ∧ s.lowNibbleClear

/-! ### What two states share -/

/-- Every byte of Memory reads alike, but for the addresses listed. -/
def SameMemoryBut (stored : List Word) (s t : State) : Prop := ∀ a, a ∉ stored → t.readByte a = s.readByte a

/-- Every half of every word but `PC`, other than those listed, is alike. -/
def SameHalvesBut (changed : List (Reg16 × Half)) (s t : State) : Prop :=
  ∀ w h, w ≠ .pc → (w, h) ∉ changed → t.half w h = s.half w h

/-- Bits 3 to 0 of `AF` are alike: no flag operation sets them (R29). -/
def SameLowNibble (s t : State) : Prop := t.af &&& 0x000F = s.af &&& 0x000F

/-! ### Runs (R110) -/

/-- `k` transactions by the reference fetch, each with outcome `Done`, lead from `s` to `t`. -/
def RunsTo (k : Nat) (s t : State) : Prop := core.run k s = Host.Outcome.next t

/-- The run that stands at `s` ends there by an unknown opcode. -/
def EndsAt (s : State) (opIn : Word) : Prop := step s = .fault (.unknownOpcode opIn)

/-- A run from `s` that never meets the extended stub: nothing is claimed of any other run (R105, R110). -/
def SafeFrom (s : State) : Prop := ∀ k r, core.run k s ≠ Host.Outcome.refused r

/-- States the host can bring about by moves that keep its duty (R7, R29, D15). -/
inductive HostReaches (s : State) : State → Prop where
  | start : HostReaches s s
  | move {t : State} (m : HostMove) (h : HostReaches s t) (ok : m.legal = true) : HostReaches s (m.act t)

/-! ### Documented tables -/

/-- The instructions that set `PC` themselves (R103). -/
def jumpInstrs : List Instr := [.jr, .jrNZ, .jrZ, .jrNC, .jrC]

/-- The addresses an instruction stores to (R56). -/
def storedAddrs (i : Instr) (s : State) : List Word :=
  if i = .ldIndBCA then [s.bc]
  else if i = .ldIndDEA then [s.de]
  else if i = .ldIndNnSP then
    [(s.readByte (s.pc + 2) ++ s.readByte (s.pc + 1) : Word), (s.readByte (s.pc + 2) ++ s.readByte (s.pc + 1) : Word) + 1]
  else []

/-- The instructions that write a half of a word other than `PC`, from the column "written by" of R25 (`F` from R31). -/
def writersOf : Reg16 → Half → List Instr
  | .af, .high => [.ldAIndBC, .ldAIndDE, .ldAIndHLInc, .ldAIndHLDec, .incA, .decA, .ldAn, .rlca, .rrca, .rla, .rra]
  | .af, .low => [.incB, .incC, .incD, .incE, .incH, .incL, .incA, .decB, .decC, .decD, .decE, .decH, .decL, .decA] ++
      [.addHLBC, .addHLDE, .addHLHL, .addHLSP, .rlca, .rrca, .rla, .rra]
  | .bc, .high => [.ldBCnn, .incBC, .decBC, .incB, .decB, .ldBn]
  | .bc, .low => [.ldBCnn, .incBC, .decBC, .incC, .decC, .ldCn]
  | .de, .high => [.ldDEnn, .incDE, .decDE, .incD, .decD, .ldDn]
  | .de, .low => [.ldDEnn, .incDE, .decDE, .incE, .decE, .ldEn]
  | .hl, .high => [.ldHLnn, .ldAIndHLInc, .ldAIndHLDec, .incHL, .decHL, .addHLBC, .addHLDE, .addHLHL, .addHLSP] ++
      [.incH, .decH, .ldHn]
  | .hl, .low => [.ldHLnn, .ldAIndHLInc, .ldAIndHLDec, .incHL, .decHL, .addHLBC, .addHLDE, .addHLHL, .addHLSP] ++
      [.incL, .decL, .ldLn]
  | .sp, _ => [.ldSPnn, .incSP, .decSP]
  | .pc, _ => []

/-- Each `INC r` with the word and half it names (R34). -/
def incTarget : List (Instr × Reg16 × Half) :=
  [(.incB, .bc, .high), (.incC, .bc, .low), (.incD, .de, .high), (.incE, .de, .low), (.incH, .hl, .high),
   (.incL, .hl, .low), (.incA, .af, .high)]

/-- Each `DEC r` with the word and half it names (R34). -/
def decTarget : List (Instr × Reg16 × Half) :=
  [(.decB, .bc, .high), (.decC, .bc, .low), (.decD, .de, .high), (.decE, .de, .low), (.decH, .hl, .high),
   (.decL, .hl, .low), (.decA, .af, .high)]

/-- Each `ADD HL,rr` with the word it adds to `HL` (R32). -/
def addSource : List (Instr × Reg16) :=
  [(.addHLBC, .bc), (.addHLDE, .de), (.addHLHL, .hl), (.addHLSP, .sp)]

/-- The flags whose old value an instruction's other results depend on: the column "reads flags" of R31. -/
def flagsRead (i : Instr) : List Flag :=
  if i ∈ [Instr.jrNZ, .jrZ] then [.z]
  else if i ∈ [Instr.jrNC, .jrC, .rla, .rra] then [.c]
  else []

end Sys2Proof.Machine
end

