-- ==== Sys2Proof/Certificates/Slice0/Obligations.lean ====
section
/-! DEFINITION. The statements for the provers. -/

open Sys2Proof Sys2Proof.Machine

/-! ### Reset and initialisation -/

/-- R39: after `initialize` every word is zero, hence `A`, every half and every flag. -/
def Obligations.ResetState : Prop :=
  State.reset.af = 0x0000 ∧ State.reset.bc = 0x0000 ∧ State.reset.de = 0x0000 ∧ State.reset.hl = 0x0000 ∧
  State.reset.sp = 0x0000 ∧ State.reset.pc = 0x0000 ∧
  (∀ w h, State.reset.half w h = 0x00) ∧ (∀ f, State.reset.flag f = false)

/-- R240: `initialize` writes zero to each word, from any state; all flags are clear and every half is zero. -/
def Obligations.InitialiseZeroesWords : Prop :=
  ∀ s : State,
    s.initialise.af = 0x0000 ∧ s.initialise.bc = 0x0000 ∧ s.initialise.de = 0x0000 ∧ s.initialise.hl = 0x0000 ∧
    s.initialise.sp = 0x0000 ∧ s.initialise.pc = 0x0000 ∧
    (∀ f, s.initialise.flag f = false) ∧ (∀ w h, s.initialise.half w h = 0x00)

/-- D19 (the spec's decision, log entry 9): a second `initialize` leaves Memory as it is. -/
def Obligations.InitialiseKeepsMemory : Prop :=
  ∀ s : State, SameMemoryBut [] s s.initialise

/-! ### Views and flags -/

/-- R21, R22, R24: the halves are bits 15 to 8 and 7 to 0 of the word, a half write keeps the other half, the two writes
commute, and a word is its two halves. -/
def Obligations.HalfViewLaws : Prop :=
  ∀ (w : Word) (hi lo v : Byte),
    halfOf w .high = w.extractLsb' 8 8 ∧ halfOf w .low = w.extractLsb' 0 8 ∧
    halfOf (setHigh w v) .high = v ∧ halfOf (setHigh w v) .low = halfOf w .low ∧
    halfOf (setLow w v) .low = v ∧ halfOf (setLow w v) .high = halfOf w .high ∧
    setHigh (setLow w lo) hi = hi ++ lo ∧ setLow (setHigh w hi) lo = hi ++ lo ∧
    halfOf w .high ++ halfOf w .low = w

/-- R23, R34 (names and table from general knowledge, D8, log entry 3): which word and half each 8-bit register is, read and written. -/
def Obligations.EightBitRegisterTable : Prop :=
  ∀ (s : State) (v : Byte),
    s.reg8 .b = s.bc.extractLsb' 8 8 ∧ s.reg8 .c = s.bc.extractLsb' 0 8 ∧
    s.reg8 .d = s.de.extractLsb' 8 8 ∧ s.reg8 .e = s.de.extractLsb' 0 8 ∧
    s.reg8 .h = s.hl.extractLsb' 8 8 ∧ s.reg8 .l = s.hl.extractLsb' 0 8 ∧
    s.reg8 .a = s.af.extractLsb' 8 8 ∧
    s.setReg8 .b v = { s with bc := v ++ s.bc.extractLsb' 0 8 } ∧
    s.setReg8 .c v = { s with bc := s.bc.extractLsb' 8 8 ++ v } ∧
    s.setReg8 .d v = { s with de := v ++ s.de.extractLsb' 0 8 } ∧
    s.setReg8 .e v = { s with de := s.de.extractLsb' 8 8 ++ v } ∧
    s.setReg8 .h v = { s with hl := v ++ s.hl.extractLsb' 0 8 } ∧
    s.setReg8 .l v = { s with hl := s.hl.extractLsb' 8 8 ++ v } ∧
    s.setReg8 .a v = { s with af := v ++ s.af.extractLsb' 0 8 }

/-- R28: the three flag operations with the masks of R27; each changes its own flag and no other bit of `AF`. -/
def Obligations.FlagOperations : Prop :=
  (flagMask .z = 0x0080 ∧ flagMask .n = 0x0040 ∧ flagMask .h = 0x0020 ∧ flagMask .c = 0x0010) ∧
  ∀ (af : Word) (f : Flag),
    flagSet af f = af ||| flagMask f ∧ flagClear af f = af &&& ~~~ flagMask f ∧
    (flagIsSet af f = true ↔ af &&& flagMask f ≠ 0) ∧
    flagIsSet (flagSet af f) f = true ∧ flagIsSet (flagClear af f) f = false ∧
    (∀ g, g ≠ f → flagIsSet (flagSet af f) g = flagIsSet af g ∧ flagIsSet (flagClear af f) g = flagIsSet af g) ∧
    halfOf (flagSet af f) .high = halfOf af .high ∧ halfOf (flagClear af f) .high = halfOf af .high ∧
    flagSet af f &&& 0x000F = af &&& 0x000F ∧ flagClear af f &&& 0x000F = af &&& 0x000F

/-- R27: the flags are bits 7, 6, 5 and 4 of `AF`, and nothing else holds them. -/
def Obligations.FlagBits : Prop :=
  ∀ s : State,
    s.flag .z = s.af.getLsbD 7 ∧ s.flag .n = s.af.getLsbD 6 ∧ s.flag .h = s.af.getLsbD 5 ∧ s.flag .c = s.af.getLsbD 4

/-! ### Memory -/

/-- R50: every address holds a readable and writable byte, and two addresses never name the same byte. -/
def Obligations.ByteReadAfterWrite : Prop :=
  ∀ (s : State) (a b : Word) (v : Byte),
    (s.writeByte a v).readByte a = v ∧ (b ≠ a → (s.writeByte a v).readByte b = s.readByte b) ∧
    (∀ r, (s.writeByte a v).reg r = s.reg r)

/-- R51, R66: after any writes from reset a byte is the one most recently written there, or `MEM_INIT` of the address,
whatever `MEM_INIT` is. -/
def Obligations.MemoryHoldsLatestWrite : Prop :=
  ∀ (ws : List (Word × Byte)) (a : Word),
    (ws.foldl (fun s w => s.writeByte w.1 w.2) State.reset).readByte a =
      match ws.reverse.find? (fun w => w.1 == a) with
      | some w => w.2
      | none => Config.memInit a

/-- The model's own canonical form of memory (log entry 1): a write keeps it, wherever it goes. -/
def Obligations.MemoryCanonicalFormKept : Prop :=
  ∀ (s : State) (a : Word) (v : Byte), s.mem.wf → (s.writeByte a v).mem.wf

/-- R53: little-endian for the immediate and for the stored `SP`. The third clause gives the whole next state of `LD (nn),SP`
(R190), and the address sums wrap modulo 2^16 (R55, the spec's decision D10, log entry 10). -/
def Obligations.LittleEndianWords : Prop :=
  (∀ s : State, s.imm16.toNat = 256 * (s.readByte (s.pc + 2)).toNat + (s.readByte (s.pc + 1)).toNat) ∧
  (∀ (s : State) (a v : Word),
    (s.writeWord a v).readByte a = v.extractLsb' 0 8 ∧ (s.writeWord a v).readByte (a + 1) = v.extractLsb' 8 8 ∧
    (s.writeWord a v).readWord a = v ∧ SameMemoryBut [a, a + 1] s (s.writeWord a v)) ∧
  (∀ s : State, exec .ldIndNnSP s = .next { s.writeWord s.imm16 s.sp with pc := s.pc + 3 })

/-! ### Encoding -/

/-- R72: the fields of an opcode byte. -/
def Obligations.OpcodeFields : Prop :=
  ∀ op : Byte,
    (fieldX op).toNat = op.toNat / 64 ∧ (fieldY op).toNat = op.toNat / 8 % 8 ∧ (fieldZ op).toNat = op.toNat % 8 ∧
    (fieldP op).toNat = (fieldY op).toNat / 2 ∧ (fieldQ op).toNat = (fieldY op).toNat % 2 ∧
    op.toNat = 64 * (fieldX op).toNat + 8 * (fieldY op).toNat + (fieldZ op).toNat

/-- Words written out from the encodings of the instruction rules (opcode numbers: the spec's decision D2, log entry 3). -/
def Obligations.KnownWordsDecode : Prop :=
  decode 0b0000000000110001 = some .ldSPnn ∧ decode 0b0000000000010010 = some .ldIndDEA ∧
  decode 0b0000000000111010 = some .ldAIndHLDec ∧ decode 0b0000000000101011 = some .decHL ∧
  decode 0b0000000000011100 = some .incE ∧ decode 0b0000000000111101 = some .decA ∧
  decode 0b0000000000100110 = some .ldHn ∧ decode 0b0000000000010111 = some .rla ∧
  decode 0b0000000000001000 = some .ldIndNnSP ∧ decode 0b0000000000111001 = some .addHLSP ∧
  decode 0b0000000000110000 = some .jrNC ∧ decode 0b1100101100000111 = some (.extendedStub 0x07) ∧
  decode 0b0000000000000000 = none ∧ decode 0b0000000011001011 = none

/-- R81, with R71, R78, R79, R80: every `op_in` is in exactly one of three classes, told by the bytes alone. The classes
rest on the spec's decisions D2 to D6 (log entries 2, 3, 4, 6). -/
def Obligations.OpInClasses : Prop :=
  ∀ opIn : Word,
    (opIn.extractLsb' 8 8 = 0xCB → decode opIn = some (.extendedStub (opIn.extractLsb' 0 8))) ∧
    (opIn.extractLsb' 8 8 = 0x00 → opIn.extractLsb' 0 8 < (0x40 : Byte) →
      opIn.extractLsb' 0 8 ∉ [(0x00 : Byte), 0x10, 0x22, 0x27, 0x2F, 0x32, 0x34, 0x35, 0x36, 0x37, 0x3F] →
      ∃ i, decode opIn = some i ∧ encode i = opIn ∧ i.format ≠ .stub) ∧
    (opIn.extractLsb' 8 8 ≠ 0xCB ∧ opIn.extractLsb' 8 8 ≠ 0x00 → decode opIn = none) ∧
    (opIn.extractLsb' 8 8 = 0x00 → ((0x40 : Byte) ≤ opIn.extractLsb' 0 8 ∨
      opIn.extractLsb' 0 8 ∈ [(0x00 : Byte), 0x10, 0x22, 0x27, 0x2F, 0x32, 0x34, 0x35, 0x36, 0x37, 0x3F]) →
      decode opIn = none)

/-- R82: the length of an instruction is told by the fields of its opcode byte alone. -/
def Obligations.LengthFromOpcode : Prop :=
  ∀ (opIn : Word) (i : Instr), decode opIn = some i → opIn.extractLsb' 8 8 = 0x00 →
    i.length =
      if (opIn.toNat % 8 = 1 ∧ opIn.toNat / 8 % 2 = 0) ∨ opIn.toNat = 0x08 then 3
      else if opIn.toNat % 8 = 6 ∨ (opIn.toNat % 8 = 0 ∧ opIn.toNat / 8 % 8 ≥ 3) then 2
      else 1

/-- Decode and encode agree (R70, R73, R74): every well-formed instruction, with every immediate, is read back from its
bytes whatever bytes follow, and its bytes are as many as its length (the stub has two opcode bytes and no length). -/
def Obligations.EncodeThenDecode : Prop :=
  ∀ (c : Code) (rest : List Byte), c.wf = true →
    decodeBytes (encodeBytes c ++ rest) = .ok (c, rest) ∧
    (encodeBytes c).length = if c.instr.format = .stub then 2 else c.instr.length

/-- The other direction: bytes that decode are the bytes of the well-formed instruction they decode to. -/
def Obligations.DecodeThenEncode : Prop :=
  ∀ (bs rest : List Byte) (c : Code), decodeBytes bs = .ok (c, rest) → c.wf = true ∧ bs = encodeBytes c ++ rest

/-- The opcode table's words: each instruction's `op_in` decodes to it, and two `op_in` values never share an instruction.
That bits 15 to 0 of a table word are `op_in` is the model's choice (log entry 7); the opcode numbers are the spec's
decision D2 (log entry 3). -/
def Obligations.TableWordsUnambiguous : Prop :=
  (∀ i : Instr, decodeTableWord 16 (encode i).toNat = some i) ∧
  (∀ (v w : Word) (i : Instr), decode v = some i → decode w = some i → v = w)

/-- R9, R78 (the spec's decision D3, log entry 2): a set of admitted opcodes makes exactly the opcode bytes it leaves out unknown;
an opcode byte it admits keeps its meaning, and outside the plain space (the stub, any other high byte) no set changes
anything. -/
def Obligations.NarrowerAdmittedSet : Prop :=
  ∀ (admitted : Byte → Bool) (opIn : Word) (s : State),
    (opIn.extractLsb' 8 8 = 0x00 ∧ admitted (opIn.extractLsb' 0 8) = false →
      executeIn admitted opIn s = .fault (.unknownOpcode opIn)) ∧
    (opIn.extractLsb' 8 8 = 0x00 ∧ admitted (opIn.extractLsb' 0 8) = true →
      (∀ op, admitted op = true → Config.admitted op = true) → executeIn admitted opIn s = execute opIn s) ∧
    (opIn.extractLsb' 8 8 = 0xCB → executeIn admitted opIn s = execute opIn s) ∧
    (opIn.extractLsb' 8 8 ≠ 0x00 → opIn.extractLsb' 8 8 ≠ 0xCB →
      executeIn admitted opIn s = .fault (.unknownOpcode opIn)) ∧
    ((∀ op, admitted op = true → Config.admitted op = true) →
      executeIn admitted opIn s = execute opIn s ∨ executeIn admitted opIn s = .fault (.unknownOpcode opIn))

/-! ### The transaction and the step -/

/-- R225, R101, R104, R105: a transaction is exactly one of: an admitted instruction that completes, an unknown opcode, the
stub; the last two leave the state as it was. That the stub changes nothing is the spec's decision D5 (log entry 4). -/
def Obligations.TransactionOutcomes : Prop :=
  ∀ (opIn : Word) (s : State),
    (∃ i t, decode opIn = some i ∧ i.format ≠ .stub ∧ exec i s = .next t ∧ transact opIn s = ⟨t, .done⟩) ∨
    (decode opIn = none ∧ transact opIn s = ⟨s, .unknownOpcode opIn⟩) ∨
    (opIn.extractLsb' 8 8 = 0xCB ∧ transact opIn s = ⟨s, .extendedStub opIn⟩)

/-- R104: an unknown opcode changes no state at all, reads nothing, and the diagnostic identifies it. The unknown values
are those of R79 (the spec's decisions D3, D4, D6; log entries 2, 3, 6). -/
def Obligations.UnknownOpcodeChangesNothing : Prop :=
  ∀ (opIn : Word) (s : State),
    (opIn.extractLsb' 8 8 ≠ 0x00 ∧ opIn.extractLsb' 8 8 ≠ 0xCB) ∨
      (opIn.extractLsb' 8 8 = 0x00 ∧ ((0x40 : Byte) ≤ opIn.extractLsb' 0 8 ∨
        opIn.extractLsb' 0 8 ∈ [(0x00 : Byte), 0x10, 0x22, 0x27, 0x2F, 0x32, 0x34, 0x35, 0x36, 0x37, 0x3F])) →
    transact opIn s = ⟨s, .unknownOpcode opIn⟩ ∧
    (transact opIn s).outcome.diagnostic = .identifies opIn

/-- R105, R80 (the spec's decision D5; log entry 4): all 256 extended opcodes end as the refusal `ExtendedStub(op_in)`, and the transaction changes nothing. -/
def Obligations.ExtendedStubRefused : Prop :=
  ∀ (low : Byte) (s : State),
    exec (.extendedStub low) s = .refused (.extendedStub ((0xCB : Byte) ++ low)) ∧
    transact ((0xCB : Byte) ++ low) s = ⟨s, .extendedStub ((0xCB : Byte) ++ low)⟩

/-- R107: the byte at `PC` is not read: `execute` runs the instruction `op_in` names, and replacing that byte changes
neither the words it ends with nor any other byte of Memory. The accumulator loads read it only as data. -/
def Obligations.OpcodeByteNotRead : Prop :=
  ∀ (opIn : Word) (i : Instr) (s t : State) (v : Byte),
    decode opIn = some i → exec i s = .next t →
    (i = .ldAIndBC → s.bc ≠ s.pc) → (i = .ldAIndDE → s.de ≠ s.pc) →
    (i = .ldAIndHLInc ∨ i = .ldAIndHLDec → s.hl ≠ s.pc) →
    execute opIn s = .next t ∧
    ∃ t', execute opIn (s.writeByte s.pc v) = .next t' ∧ (∀ r, t'.reg r = t.reg r) ∧
      ∀ a, a ≠ s.pc → t'.readByte a = t.readByte a

/-- A step runs the decoded instruction (reference fetch, R109, D13, log entry 6): when the bytes at `PC` decode to an instruction, `step`
is `exec` of it at that state, and the immediate it reads from Memory is the one decoded. -/
def Obligations.StepRunsDecodedInstruction : Prop :=
  ∀ (s : State) (c : Code) (rest : List Byte),
    decodeBytes [s.readByte s.pc, s.readByte (s.pc + 1), s.readByte (s.pc + 2)] = .ok (c, rest) →
    step s = exec c.instr s ∧ (∀ v, c.imm = .byte v → s.imm8 = v) ∧ (∀ v, c.imm = .word v → s.imm16 = v)

/-- R109 (the spec's decision D13, log entry 6): the `op_in` the reference fetch forms. -/
def Obligations.ReferenceFetch : Prop :=
  ∀ s : State,
    (s.readByte s.pc ≠ 0xCB → s.fetchOpIn.toNat = (s.readByte s.pc).toNat) ∧
    (s.readByte s.pc = 0xCB → s.fetchOpIn = s.readByte s.pc ++ s.readByte (s.pc + 1)) ∧
    step s = execute s.fetchOpIn s

/-- The loader's write of an instruction at `PC` (R65, R244; log entry 7): the very next step runs it. -/
def Obligations.LoadedInstructionRuns : Prop :=
  ∀ (i : Instr) (s : State),
    step (s.withFetchWord 16 (encode i).toNat) = exec i (s.withFetchWord 16 (encode i).toNat) ∧
    SameMemoryBut [s.pc, s.pc + 1, s.pc + 2, s.pc + 3] s (s.withFetchWord 16 (encode i).toNat) ∧
    (∀ r, (s.withFetchWord 16 (encode i).toNat).reg r = s.reg r)

/-- R103, R205: the dispatcher advances `PC` by the instruction's fixed length, and the relative jumps set `PC` themselves, past
their two bytes with or without the displacement, all modulo 2^16 (the spec's decision D10, log entry 10). -/
def Obligations.ProgramCounterAdvance : Prop :=
  ∀ (i : Instr) (s t : State), exec i s = .next t →
    (i ∉ jumpInstrs → t.pc.toNat = (s.pc.toNat + i.length) % 65536 ∧ 1 ≤ i.length ∧ i.length ≤ 3) ∧
    (i ∈ jumpInstrs →
      t.pc = BitVec.ofInt 16 (s.pc.toNat + 2) ∨
      t.pc = BitVec.ofInt 16 (s.pc.toNat + 2 + (s.readByte (s.pc + 1)).toInt))

/-- R110 (the spec's decisions D5, D13; as a fault and a refusal: the model's choice, log entries 4, 5): a run goes on by a `Done`
transaction, or it ends in one of two ways: at an unknown opcode, or refused at the extended stub. Each end leaves the state
unchanged, `PC` at the opcode that ended it. -/
def Obligations.EndOfRunKeepsState : Prop :=
  ∀ s : State,
    (decode s.fetchOpIn = none → EndsAt s s.fetchOpIn) ∧
    (s.fetchOpIn.extractLsb' 8 8 = 0xCB → step s = .refused (.extendedStub s.fetchOpIn)) ∧
    (decode s.fetchOpIn ≠ none → s.fetchOpIn.extractLsb' 8 8 ≠ 0xCB → ∃ t, RunsTo 1 s t) ∧
    (∀ opIn : Word, EndsAt s opIn →
      opIn = s.fetchOpIn ∧ decode opIn = none ∧ transact opIn s = ⟨s, .unknownOpcode opIn⟩ ∧
      ∀ k t, 0 < k → ¬ RunsTo k s t) ∧
    (∀ r : Refusal, step s = .refused r →
      r = .extendedStub s.fetchOpIn ∧ s.fetchOpIn.extractLsb' 8 8 = 0xCB ∧
      transact s.fetchOpIn s = ⟨s, .extendedStub s.fetchOpIn⟩ ∧ ∀ k t, 0 < k → ¬ RunsTo k s t)

/-- R105, R110 (D5): a run is refused only where it meets the prefix: after some number of `Done` transactions `PC` stands at a
byte `0xCB`. -/
def Obligations.RefusalOnlyAtPrefix : Prop :=
  ∀ (k : Nat) (s : State) (r : Refusal), core.run k s = Host.Outcome.refused r →
    ∃ j t, j < k ∧ RunsTo j s t ∧ t.readByte t.pc = 0xCB ∧
      r = .extendedStub ((0xCB : Byte) ++ t.readByte (t.pc + 1))

/-- R63: a store is what the next fetch reads. Both stores of the accumulator and the store of `SP`, with the stored byte at
the address of the next instruction. -/
def Obligations.StoreSeenByNextFetch : Prop :=
  ∀ s t : State,
    (exec .ldIndBCA s = .next t → s.bc = s.pc + 1 → s.af.extractLsb' 8 8 ≠ (0xCB : Byte) →
      t.fetchOpIn.toNat = s.af.toNat / 256) ∧
    (exec .ldIndDEA s = .next t → s.de = s.pc + 1 → s.af.extractLsb' 8 8 ≠ (0xCB : Byte) →
      t.fetchOpIn.toNat = s.af.toNat / 256) ∧
    (exec .ldIndNnSP s = .next t → s.imm16 = s.pc + 3 → s.sp.extractLsb' 0 8 ≠ (0xCB : Byte) →
      t.fetchOpIn.toNat = s.sp.toNat % 256 ∧ t.imm8 = s.sp.extractLsb' 8 8)

/-! ### The instructions, family by family

The opcode numbers, the register table, the condition table and the tie of the rotates to their names are the spec's
decisions D2, D7, D8 and D9 (log entry 3). -/

/-- R120 to R124: `LD rr,nn`. The pair takes the two immediate bytes, low byte first; nothing else changes but `PC`. -/
def Obligations.LoadPairImmediate : Prop :=
  (decode 0x0001 = some .ldBCnn ∧ decode 0x0011 = some .ldDEnn ∧ decode 0x0021 = some .ldHLnn ∧
    decode 0x0031 = some .ldSPnn) ∧
  ∀ s : State,
    exec .ldBCnn s = .next { s with bc := s.readByte (s.pc + 2) ++ s.readByte (s.pc + 1), pc := s.pc + 3 } ∧
    exec .ldDEnn s = .next { s with de := s.readByte (s.pc + 2) ++ s.readByte (s.pc + 1), pc := s.pc + 3 } ∧
    exec .ldHLnn s = .next { s with hl := s.readByte (s.pc + 2) ++ s.readByte (s.pc + 1), pc := s.pc + 3 } ∧
    exec .ldSPnn s = .next { s with sp := s.readByte (s.pc + 2) ++ s.readByte (s.pc + 1), pc := s.pc + 3 }

/-- R130, R131: `LD (BC),A` and `LD (DE),A`. The byte at the pair's address becomes `A`; every other byte and every word but
`PC` is unchanged. -/
def Obligations.StoreAccumulator : Prop :=
  (decode 0x0002 = some .ldIndBCA ∧ decode 0x0012 = some .ldIndDEA) ∧
  ∀ s : State,
    (∃ t, exec .ldIndBCA s = .next t ∧ t = { s with mem := t.mem, pc := s.pc + 1 } ∧
      t.readByte s.bc = s.af.extractLsb' 8 8 ∧ SameMemoryBut [s.bc] s t) ∧
    (∃ t, exec .ldIndDEA s = .next t ∧ t = { s with mem := t.mem, pc := s.pc + 1 } ∧
      t.readByte s.de = s.af.extractLsb' 8 8 ∧ SameMemoryBut [s.de] s t)

/-- R132 to R135: `LD A,(BC)`, `LD A,(DE)`, `LD A,(HL+)`, `LD A,(HL-)`. `A` takes the byte at the word's old value, `F` is
kept, `HL` is counted up or down, modulo 2^16. -/
def Obligations.LoadAccumulator : Prop :=
  (decode 0x000A = some .ldAIndBC ∧ decode 0x001A = some .ldAIndDE ∧ decode 0x002A = some .ldAIndHLInc ∧
    decode 0x003A = some .ldAIndHLDec) ∧
  ∀ s : State,
    exec .ldAIndBC s = .next { s with af := s.readByte s.bc ++ s.af.extractLsb' 0 8, pc := s.pc + 1 } ∧
    exec .ldAIndDE s = .next { s with af := s.readByte s.de ++ s.af.extractLsb' 0 8, pc := s.pc + 1 } ∧
    exec .ldAIndHLInc s =
      .next { s with af := s.readByte s.hl ++ s.af.extractLsb' 0 8, hl := s.hl + 1, pc := s.pc + 1 } ∧
    exec .ldAIndHLDec s =
      .next { s with af := s.readByte s.hl ++ s.af.extractLsb' 0 8, hl := s.hl - 1, pc := s.pc + 1 }

/-- R140 to R148: `INC rr` and `DEC rr` count the whole word modulo 2^16 and touch nothing else but `PC`. -/
def Obligations.IncDecPair : Prop :=
  (decode 0x0003 = some .incBC ∧ decode 0x0013 = some .incDE ∧ decode 0x0023 = some .incHL ∧
    decode 0x0033 = some .incSP ∧ decode 0x000B = some .decBC ∧ decode 0x001B = some .decDE ∧
    decode 0x002B = some .decHL ∧ decode 0x003B = some .decSP) ∧
  ∀ s : State,
    exec .incBC s = .next { s with bc := s.bc + 1, pc := s.pc + 1 } ∧
    exec .incDE s = .next { s with de := s.de + 1, pc := s.pc + 1 } ∧
    exec .incHL s = .next { s with hl := s.hl + 1, pc := s.pc + 1 } ∧
    exec .incSP s = .next { s with sp := s.sp + 1, pc := s.pc + 1 } ∧
    exec .decBC s = .next { s with bc := s.bc - 1, pc := s.pc + 1 } ∧
    exec .decDE s = .next { s with de := s.de - 1, pc := s.pc + 1 } ∧
    exec .decHL s = .next { s with hl := s.hl - 1, pc := s.pc + 1 } ∧
    exec .decSP s = .next { s with sp := s.sp - 1, pc := s.pc + 1 }

/-- R151 to R157: `INC B`, `INC C`, `INC D`, `INC E`, `INC H`, `INC L`, `INC A`. The half goes up by 1 modulo 256; `Z` iff the
result is 0, `N` clear, `Hf` iff the old low nibble is 15, `Cy` kept; no other half, no byte of Memory, no low flag bit
changes. -/
def Obligations.IncrementHalf : Prop :=
  (decode 0x0004 = some .incB ∧ decode 0x000C = some .incC ∧ decode 0x0014 = some .incD ∧ decode 0x001C = some .incE ∧
    decode 0x0024 = some .incH ∧ decode 0x002C = some .incL ∧ decode 0x003C = some .incA) ∧
  ∀ x ∈ [(Instr.incB, Reg16.bc, Half.high), (.incC, .bc, .low), (.incD, .de, .high), (.incE, .de, .low),
      (.incH, .hl, .high), (.incL, .hl, .low), (.incA, .af, .high)],
    ∀ s : State, ∃ t, exec x.1 s = .next t ∧
      (t.half x.2.1 x.2.2).toNat = ((s.half x.2.1 x.2.2).toNat + 1) % 256 ∧
      t.flag .z = decide ((t.half x.2.1 x.2.2).toNat = 0) ∧ t.flag .n = false ∧
      t.flag .h = decide ((s.half x.2.1 x.2.2).toNat % 16 = 15) ∧ t.flag .c = s.flag .c ∧
      SameHalvesBut [x.2, (.af, .low)] s t ∧ SameLowNibble s t ∧ t.pc = s.pc + 1 ∧ SameMemoryBut [] s t

/-- R158 to R164: `DEC B`, `DEC C`, `DEC D`, `DEC E`, `DEC H`, `DEC L`, `DEC A`. The half goes down by 1 modulo 256; `Z` iff the
result is 0, `N` set, `Hf` iff the old low nibble is 0, `Cy` kept; no other half, no byte of Memory, no low flag bit changes. -/
def Obligations.DecrementHalf : Prop :=
  (decode 0x0005 = some .decB ∧ decode 0x000D = some .decC ∧ decode 0x0015 = some .decD ∧ decode 0x001D = some .decE ∧
    decode 0x0025 = some .decH ∧ decode 0x002D = some .decL ∧ decode 0x003D = some .decA) ∧
  ∀ x ∈ [(Instr.decB, Reg16.bc, Half.high), (.decC, .bc, .low), (.decD, .de, .high), (.decE, .de, .low),
      (.decH, .hl, .high), (.decL, .hl, .low), (.decA, .af, .high)],
    ∀ s : State, ∃ t, exec x.1 s = .next t ∧
      (t.half x.2.1 x.2.2).toNat = ((s.half x.2.1 x.2.2).toNat + 255) % 256 ∧
      t.flag .z = decide ((t.half x.2.1 x.2.2).toNat = 0) ∧ t.flag .n = true ∧
      t.flag .h = decide ((s.half x.2.1 x.2.2).toNat % 16 = 0) ∧ t.flag .c = s.flag .c ∧
      SameHalvesBut [x.2, (.af, .low)] s t ∧ SameLowNibble s t ∧ t.pc = s.pc + 1 ∧ SameMemoryBut [] s t

/-- R150: an increment then a decrement of the same half, or the reverse, restores it and leaves `PC` advanced by both lengths;
the flags are those of the last operation. -/
def Obligations.IncDecHalfRestore : Prop :=
  ∀ x ∈ [(Instr.incB, Instr.decB, Reg16.bc, Half.high), (.incC, .decC, .bc, .low), (.incD, .decD, .de, .high),
      (.incE, .decE, .de, .low), (.incH, .decH, .hl, .high), (.incL, .decL, .hl, .low), (.incA, .decA, .af, .high)],
    ∀ s : State,
      (∃ t u, exec x.1 s = .next t ∧ exec x.2.1 t = .next u ∧ u.half x.2.2.1 x.2.2.2 = s.half x.2.2.1 x.2.2.2 ∧
        u.pc = s.pc + 2 ∧ u.flag .n = true ∧ u.flag .c = s.flag .c ∧
        u.flag .z = decide ((s.half x.2.2.1 x.2.2.2).toNat = 0) ∧
        u.flag .h = decide ((s.half x.2.2.1 x.2.2.2).toNat % 16 = 15)) ∧
      (∃ t u, exec x.2.1 s = .next t ∧ exec x.1 t = .next u ∧ u.half x.2.2.1 x.2.2.2 = s.half x.2.2.1 x.2.2.2 ∧
        u.pc = s.pc + 2 ∧ u.flag .n = false ∧ u.flag .c = s.flag .c ∧
        u.flag .z = decide ((s.half x.2.2.1 x.2.2.2).toNat = 0) ∧
        u.flag .h = decide ((s.half x.2.2.1 x.2.2.2).toNat % 16 = 0))

/-- R177, R170 to R176: `LD r,n`. The half takes the immediate byte; the other half, `F` among them, is kept. -/
def Obligations.LoadImmediateHalf : Prop :=
  (decode 0x0006 = some .ldBn ∧ decode 0x000E = some .ldCn ∧ decode 0x0016 = some .ldDn ∧ decode 0x001E = some .ldEn ∧
    decode 0x0026 = some .ldHn ∧ decode 0x002E = some .ldLn ∧ decode 0x003E = some .ldAn) ∧
  ∀ s : State,
    exec .ldBn s = .next { s with bc := s.readByte (s.pc + 1) ++ s.bc.extractLsb' 0 8, pc := s.pc + 2 } ∧
    exec .ldCn s = .next { s with bc := s.bc.extractLsb' 8 8 ++ s.readByte (s.pc + 1), pc := s.pc + 2 } ∧
    exec .ldDn s = .next { s with de := s.readByte (s.pc + 1) ++ s.de.extractLsb' 0 8, pc := s.pc + 2 } ∧
    exec .ldEn s = .next { s with de := s.de.extractLsb' 8 8 ++ s.readByte (s.pc + 1), pc := s.pc + 2 } ∧
    exec .ldHn s = .next { s with hl := s.readByte (s.pc + 1) ++ s.hl.extractLsb' 0 8, pc := s.pc + 2 } ∧
    exec .ldLn s = .next { s with hl := s.hl.extractLsb' 8 8 ++ s.readByte (s.pc + 1), pc := s.pc + 2 } ∧
    exec .ldAn s = .next { s with af := s.readByte (s.pc + 1) ++ s.af.extractLsb' 0 8, pc := s.pc + 2 }

/-- R180 to R183: `RLCA`, `RRCA`, `RLA`, `RRA`. `A` as an arithmetic of its old value and, for `RLA` and `RRA`, of the old carry;
`Z`, `N`, `Hf` clear, `Cy` the bit shifted off; nothing else changes but `PC`. -/
def Obligations.RotateAccumulator : Prop :=
  (decode 0x0007 = some .rlca ∧ decode 0x000F = some .rrca ∧ decode 0x0017 = some .rla ∧ decode 0x001F = some .rra) ∧
  ∀ s : State,
    (∃ t, exec .rlca s = .next t ∧ t.a.toNat = 2 * s.a.toNat % 256 + s.a.toNat / 128 ∧
      t.flag .c = decide (s.a.toNat / 128 = 1) ∧ t.flag .z = false ∧ t.flag .n = false ∧ t.flag .h = false ∧
      SameHalvesBut [(.af, .high), (.af, .low)] s t ∧ SameLowNibble s t ∧ t.pc = s.pc + 1 ∧ SameMemoryBut [] s t) ∧
    (∃ t, exec .rrca s = .next t ∧ t.a.toNat = s.a.toNat / 2 + 128 * (s.a.toNat % 2) ∧
      t.flag .c = decide (s.a.toNat % 2 = 1) ∧ t.flag .z = false ∧ t.flag .n = false ∧ t.flag .h = false ∧
      SameHalvesBut [(.af, .high), (.af, .low)] s t ∧ SameLowNibble s t ∧ t.pc = s.pc + 1 ∧ SameMemoryBut [] s t) ∧
    (∃ t, exec .rla s = .next t ∧ t.a.toNat = 2 * s.a.toNat % 256 + (if s.flag .c then 1 else 0) ∧
      t.flag .c = decide (s.a.toNat / 128 = 1) ∧ t.flag .z = false ∧ t.flag .n = false ∧ t.flag .h = false ∧
      SameHalvesBut [(.af, .high), (.af, .low)] s t ∧ SameLowNibble s t ∧ t.pc = s.pc + 1 ∧ SameMemoryBut [] s t) ∧
    (∃ t, exec .rra s = .next t ∧ t.a.toNat = s.a.toNat / 2 + 128 * (if s.flag .c then 1 else 0) ∧
      t.flag .c = decide (s.a.toNat % 2 = 1) ∧ t.flag .z = false ∧ t.flag .n = false ∧ t.flag .h = false ∧
      SameHalvesBut [(.af, .high), (.af, .low)] s t ∧ SameLowNibble s t ∧ t.pc = s.pc + 1 ∧ SameMemoryBut [] s t)

/-- R181, R183, corner cases: `RRCA` undoes `RLCA` on `A`, and `RRA` undoes `RLA` on `A` and `Cy` together. -/
def Obligations.RotatesUndoEachOther : Prop :=
  ∀ s : State,
    (∃ t u, exec .rlca s = .next t ∧ exec .rrca t = .next u ∧ u.a = s.a) ∧
    (∃ t u, exec .rla s = .next t ∧ exec .rra t = .next u ∧ u.a = s.a ∧ u.flag .c = s.flag .c)

/-- R190: `LD (nn),SP`. The low byte of `SP` goes to `nn`, the high byte to `nn + 1` modulo 2^16, with `nn` the immediate read
before either write; every other byte and every word but `PC` is unchanged. -/
def Obligations.StoreStackPointer : Prop :=
  decode 0x0008 = some .ldIndNnSP ∧
  ∀ s : State, ∃ (nn : Word) (t : State), nn = s.readByte (s.pc + 2) ++ s.readByte (s.pc + 1) ∧
    exec .ldIndNnSP s = .next t ∧ t = { s with mem := t.mem, pc := s.pc + 3 } ∧
    t.readByte nn = s.sp.extractLsb' 0 8 ∧ t.readByte (nn + 1) = s.sp.extractLsb' 8 8 ∧
    SameMemoryBut [nn, nn + 1] s t

/-- R195 to R199: `ADD HL,BC`, `ADD HL,DE`, `ADD HL,HL`, `ADD HL,SP`. `HL` takes the sum modulo 2^16; `N` clear, `Hf` the carry out of
bit 11, `Cy` the carry out of bit 15, `Z` kept; nothing else changes but `PC`. -/
def Obligations.AddToHL : Prop :=
  (decode 0x0009 = some .addHLBC ∧ decode 0x0019 = some .addHLDE ∧ decode 0x0029 = some .addHLHL ∧
    decode 0x0039 = some .addHLSP) ∧
  ∀ x ∈ [(Instr.addHLBC, Reg16.bc), (.addHLDE, .de), (.addHLHL, .hl), (.addHLSP, .sp)],
    ∀ s : State, ∃ t, exec x.1 s = .next t ∧
      t.hl.toNat = (s.hl.toNat + (s.reg x.2).toNat) % 65536 ∧
      t.flag .h = decide (s.hl.toNat % 4096 + (s.reg x.2).toNat % 4096 ≥ 4096) ∧
      t.flag .c = decide (s.hl.toNat + (s.reg x.2).toNat ≥ 65536) ∧
      t.flag .n = false ∧ t.flag .z = s.flag .z ∧
      SameHalvesBut [(.hl, .high), (.hl, .low), (.af, .low)] s t ∧ SameLowNibble s t ∧ t.pc = s.pc + 1 ∧
      SameMemoryBut [] s t

/-- R206: `JR e`. `PC` takes its old value plus 2 plus the signed displacement, modulo 2^16; nothing else changes. -/
def Obligations.JumpAlways : Prop :=
  decode 0x0018 = some .jr ∧
  ∀ s : State,
    exec .jr s = .next { s with pc := BitVec.ofInt 16 (s.pc.toNat + 2 + (s.readByte (s.pc + 1)).toInt) }

/-- R207 to R210: `JR NZ,e`, `JR Z,e`, `JR NC,e`, `JR C,e`. Taken iff bit 7 (`Z`) or bit 4 (`Cy`) of `AF` is as the condition says; not
taken, `PC` goes to the next instruction whatever the displacement is; nothing else changes. -/
def Obligations.JumpOnCondition : Prop :=
  (decode 0x0020 = some .jrNZ ∧ decode 0x0028 = some .jrZ ∧ decode 0x0030 = some .jrNC ∧ decode 0x0038 = some .jrC) ∧
  ∀ x ∈ [(Instr.jrNZ, 7, false), (.jrZ, 7, true), (.jrNC, 4, false), (.jrC, 4, true)],
    ∀ s : State,
      (s.af.getLsbD x.2.1 = x.2.2 →
        exec x.1 s = .next { s with pc := BitVec.ofInt 16 (s.pc.toNat + 2 + (s.readByte (s.pc + 1)).toInt) }) ∧
      (s.af.getLsbD x.2.1 ≠ x.2.2 → exec x.1 s = .next { s with pc := BitVec.ofInt 16 (s.pc.toNat + 2) })

/-! ### Rules over all instructions -/

/-- R220: no admitted instruction can fail; every one of them completes from every state. -/
def Obligations.AdmittedInstructionsComplete : Prop :=
  ∀ (i : Instr) (s : State), (∀ low, i ≠ .extendedStub low) → ∃ t, exec i s = .next t

/-- R30, R31: the value of each flag after each instruction: `INC r` and `DEC r` write `Z`, `N`, `Hf`; `ADD HL,rr` writes `N`, `Hf`,
`Cy`; the rotates write all four; every flag not named is unchanged, and no other instruction touches a flag. -/
def Obligations.FlagDispositions : Prop :=
  ∀ (i : Instr) (s t : State), exec i s = .next t →
    (∀ w h, (i, w, h) ∈ incTarget →
      t.flag .z = decide (s.half w h = 0xFF) ∧ t.flag .n = false ∧ t.flag .h = decide ((s.half w h).toNat % 16 = 15) ∧
      t.flag .c = s.flag .c) ∧
    (∀ w h, (i, w, h) ∈ decTarget →
      t.flag .z = decide (s.half w h = 0x01) ∧ t.flag .n = true ∧ t.flag .h = decide ((s.half w h).toNat % 16 = 0) ∧
      t.flag .c = s.flag .c) ∧
    (∀ w, (i, w) ∈ addSource →
      t.flag .z = s.flag .z ∧ t.flag .n = false ∧
      t.flag .h = decide (s.hl.toNat % 4096 + (s.reg w).toNat % 4096 ≥ 4096) ∧
      t.flag .c = decide (s.hl.toNat + (s.reg w).toNat ≥ 65536)) ∧
    (i ∈ [Instr.rlca, .rla] →
      t.flag .z = false ∧ t.flag .n = false ∧ t.flag .h = false ∧ t.flag .c = s.af.getLsbD 15) ∧
    (i ∈ [Instr.rrca, .rra] →
      t.flag .z = false ∧ t.flag .n = false ∧ t.flag .h = false ∧ t.flag .c = s.af.getLsbD 8) ∧
    (i ∉ writersOf .af .low → t.f = s.f)

/-- R31, column "reads flags": two states that differ in flags only, and agree in the flags an instruction reads, give results that
differ in flags only; so no instruction reads `N` or `Hf`. -/
def Obligations.FlagsReadOnlyWhereListed : Prop :=
  ∀ (i : Instr) (s s' t t' : State),
    s'.mem = s.mem → s'.pc = s.pc → SameHalvesBut [(.af, .low)] s s' →
    (∀ f ∈ flagsRead i, s'.flag f = s.flag f) →
    exec i s = .next t → exec i s' = .next t' →
    t'.mem = t.mem ∧ t'.pc = t.pc ∧ SameHalvesBut [(.af, .low)] t t' ∧
      (i ∈ [Instr.rlca, .rrca, .rla, .rra] → ∀ f, t'.flag f = t.flag f)

/-- R25: each half of each word but `PC` is written only by the instructions listed for it. -/
def Obligations.RegisterWriters : Prop :=
  ∀ (i : Instr) (s t : State), exec i s = .next t →
    ∀ w h, w ≠ .pc → i ∉ writersOf w h → t.half w h = s.half w h

/-- R56: only the two stores of the accumulator and the store of `SP` write Memory, at the addresses listed. -/
def Obligations.MemoryWriters : Prop :=
  ∀ (i : Instr) (s t : State), exec i s = .next t → SameMemoryBut (storedAddrs i s) s t

/-- The state after reset meets the invariant: `AF[3:0] = 0` (R29, R39), and the model's own canonical form of Memory (the
model's choice, log entry 1). -/
def Obligations.ResetMeetsInvariant : Prop := State.reset.Inv

/-- R29 and the model's own canonical form of Memory (log entry 1): every step keeps Memory canonical and `AF[3:0] = 0`, from every state that has them. -/
def Obligations.StepKeepsInvariant : Prop :=
  ∀ s t : State, s.Inv → step s = .next t → t.Inv

/-- R29, D15: whatever the host does between transactions, within its duty, and whatever opcodes it passes, every state it can bring
about keeps the invariant. -/
def Obligations.HostKeepsInvariant : Prop :=
  ∀ s t : State, s.Inv → HostReaches s t → t.Inv
end

