-- ==== Sys2Proof/Laws/Bits.lean ====
section
/-! SUPPORT. Words and halves as bit fields: the shift and mask formulas of R21, R22 and R53 as extraction and append. -/

namespace Sys2Proof.Machine

theorem high_eq (w : Word) : w.high = w.extractLsb' 8 8 := by
  ext i hi; simp [Word.high]

theorem low_eq (w : Word) : w.low = w.extractLsb' 0 8 := by
  ext i hi; simp [Word.low]

theorem join_eq (hi lo : Byte) : Word.join hi lo = hi ++ lo := by
  apply BitVec.eq_of_getLsbD_eq; intro i h
  rw [BitVec.getLsbD_append]
  interval_cases i <;> simp [Word.join]

theorem setHigh_eq (w : Word) (v : Byte) : setHigh w v = v ++ w.extractLsb' 0 8 := by
  apply BitVec.eq_of_getLsbD_eq; intro i h
  rw [BitVec.getLsbD_append]
  interval_cases i <;> simp [setHigh]

theorem setLow_eq (w : Word) (v : Byte) : setLow w v = w.extractLsb' 8 8 ++ v := by
  apply BitVec.eq_of_getLsbD_eq; intro i h
  rw [BitVec.getLsbD_append]
  interval_cases i <;> simp [setLow]

@[simp] theorem extract_high_append (hi lo : Byte) : (hi ++ lo : Word).extractLsb' 8 8 = hi := by
  apply BitVec.eq_of_getLsbD_eq; intro i h
  simp only [BitVec.getLsbD_extractLsb', h, decide_true, Bool.true_and]
  rw [BitVec.getLsbD_append]; simp

@[simp] theorem extract_low_append (hi lo : Byte) : (hi ++ lo : Word).extractLsb' 0 8 = lo := by
  apply BitVec.eq_of_getLsbD_eq; intro i h
  simp only [BitVec.getLsbD_extractLsb', h, decide_true, Bool.true_and]
  rw [BitVec.getLsbD_append]; simp [h]

@[simp] theorem append_extract (w : Word) : w.extractLsb' 8 8 ++ w.extractLsb' 0 8 = w := by
  apply BitVec.eq_of_getLsbD_eq; intro i h
  rw [BitVec.getLsbD_append]
  interval_cases i <;> simp

/-- A word is its two halves. -/
theorem word_ext_halves {v w : Word} (h : v.extractLsb' 8 8 = w.extractLsb' 8 8)
    (l : v.extractLsb' 0 8 = w.extractLsb' 0 8) : v = w := by
  rw [← append_extract v, ← append_extract w, h, l]

theorem toNat_append (hi lo : Byte) : (hi ++ lo : Word).toNat = 256 * hi.toNat + lo.toNat := by
  have h := lo.isLt
  have e : (hi ++ lo : Word).toNat = hi.toNat <<< 8 ||| lo.toNat := BitVec.toNat_append hi lo
  rw [e, Nat.shiftLeft_eq, Nat.mul_comm, ← Nat.two_pow_add_eq_or_of_lt (by omega)]

theorem toNat_extract_high (w : Word) : (w.extractLsb' 8 8).toNat = w.toNat / 256 := by
  have := w.isLt
  simp [BitVec.extractLsb'_toNat, Nat.shiftRight_eq_div_pow]; omega

theorem toNat_extract_low (w : Word) : (w.extractLsb' 0 8).toNat = w.toNat % 256 := by
  simp [BitVec.extractLsb'_toNat]

@[simp] theorem halfOf_high (w : Word) : halfOf w .high = w.extractLsb' 8 8 := high_eq w
@[simp] theorem halfOf_low (w : Word) : halfOf w .low = w.extractLsb' 0 8 := low_eq w
@[simp] theorem setHalfOf_high (w : Word) (v : Byte) : setHalfOf w .high v = v ++ w.extractLsb' 0 8 := setHigh_eq w v
@[simp] theorem setHalfOf_low (w : Word) (v : Byte) : setHalfOf w .low v = w.extractLsb' 8 8 ++ v := setLow_eq w v

/-- A written half reads back, and the other half is kept. -/
theorem halfOf_setHalfOf (w : Word) (h g : Half) (v : Byte) :
    halfOf (setHalfOf w h v) g = if g = h then v else halfOf w g := by
  cases h <;> cases g <;> simp

end Sys2Proof.Machine
end

