-- ==== Sys2Proof/Laws/Decode.lean ====
section
/-! SUPPORT. The decoder and the encoder: classes of `op_in`, and the bytes of an instruction. -/

namespace Sys2Proof

open Machine

@[simp] theorem high_join (hi lo : Byte) : (Word.join hi lo).high = hi := by
  rw [join_eq, high_eq, extract_high_append]

@[simp] theorem low_join (hi lo : Byte) : (Word.join hi lo).low = lo := by
  rw [join_eq, low_eq, extract_low_append]

@[simp] theorem high_setWidth (b : Byte) : Word.high (b.setWidth 16) = 0 := by
  apply BitVec.eq_of_getLsbD_eq; intro i h
  interval_cases i <;> simp [Word.high]

@[simp] theorem low_setWidth (b : Byte) : Word.low (b.setWidth 16) = b := by
  apply BitVec.eq_of_getLsbD_eq; intro i h
  interval_cases i <;> simp [Word.low]

theorem join_high_low (w : Word) : Word.join w.high w.low = w := by
  rw [join_eq, high_eq, low_eq, append_extract]

theorem setWidth_low {w : Word} (h : w.high = 0) : w.low.setWidth 16 = w := by
  conv_rhs => rw [← join_high_low w, h]
  apply BitVec.eq_of_getLsbD_eq; intro i hi
  interval_cases i <;> simp [Word.join]

/-- The extended space (R80). -/
theorem decode_stub (low : Byte) : decode (Word.join 0xCB low) = some (.extendedStub low) := by
  simp [decode, decodeIn]

/-- The plain space, as a function of the opcode byte alone. -/
theorem decode_plain (op : Byte) :
    decode (op.setWidth 16) = if Config.admitted op then decodePlain op else none := by
  unfold decode decodeIn
  rw [high_setWidth, low_setWidth, if_neg (by decide), if_neg (by decide)]

/-- Every other high byte is unknown (R71). -/
theorem decode_other {w : Word} (c : w.high ≠ 0xCB) (z : w.high ≠ 0) : decode w = none := by
  unfold decode decodeIn
  rw [if_neg c, if_pos z]

/-- What the 256 opcode bytes decode to: an instruction that encodes to them, is not the stub, and is admitted. -/
theorem decode_plain_cases : ∀ op : Byte, ∀ i ∈ decode (op.setWidth 16),
    encode i = op.setWidth 16 ∧ i.format ≠ .stub ∧ Config.admitted op = true := by
  decide +kernel

/-- What a decoded instruction says of its `op_in`. -/
theorem decode_some {w : Word} {i : Instr} (h : decode w = some i) :
    (i = .extendedStub w.low ∧ w = Word.join 0xCB w.low) ∨
      (w.high = 0 ∧ encode i = w ∧ i.format ≠ .stub ∧ Config.admitted w.low = true) := by
  by_cases c : w.high = 0xCB
  · left
    have e := join_high_low w
    rw [c] at e
    rw [← e, decode_stub, Option.some.injEq] at h
    exact ⟨h.symm, e.symm⟩
  · right
    by_cases z : w.high = 0
    · have p := decode_plain_cases w.low i (by rw [setWidth_low z, h]; rfl)
      rw [setWidth_low z] at p
      exact ⟨z, p⟩
    · rw [decode_other c z] at h; exact absurd h (by simp)

/-- A decoded instruction encodes to the `op_in` it was decoded from. -/
theorem encode_of_decode {w : Word} {i : Instr} (h : decode w = some i) : encode i = w := by
  rcases decode_some h with ⟨rfl, e⟩ | ⟨_, e, _⟩
  · exact e.symm
  · exact e

/-- In the plain space the set of admitted opcodes decides, by the opcode byte alone. -/
theorem decodeIn_plain (admitted : Byte → Bool) {w : Word} (z : w.high = 0) :
    decodeIn admitted w = if admitted w.low then decodePlain w.low else none := by
  simp [decodeIn, z]

/-- Outside the plain space no set of admitted opcodes changes anything. -/
theorem decodeIn_outside (admitted : Byte → Bool) {w : Word} (z : w.high ≠ 0) : decodeIn admitted w = decode w := by
  unfold decode decodeIn
  rw [if_pos z, if_pos z]

/-- Narrowing the set of admitted opcodes changes no meaning (D3). -/
theorem decodeIn_eq_or_none {admitted : Byte → Bool} (sub : ∀ op, admitted op = true → Config.admitted op = true)
    (w : Word) : decodeIn admitted w = decode w ∨ decodeIn admitted w = none := by
  unfold decode decodeIn
  split
  · simp
  · split
    · simp
    · cases h : admitted w.low
      · simp
      · simp [sub _ h]

end Sys2Proof
end

