-- ==== Sys2Proof/Laws/State.lean ====
section
/-! SUPPORT. What each update of the state does to each field, so that no later proof unfolds a record update. -/

namespace Sys2Proof.Machine

/-! ### Reading a word -/

@[simp] theorem reg_af (s : State) : s.reg .af = s.af := rfl
@[simp] theorem reg_bc (s : State) : s.reg .bc = s.bc := rfl
@[simp] theorem reg_de (s : State) : s.reg .de = s.de := rfl
@[simp] theorem reg_hl (s : State) : s.reg .hl = s.hl := rfl
@[simp] theorem reg_sp (s : State) : s.reg .sp = s.sp := rfl
@[simp] theorem reg_pc (s : State) : s.reg .pc = s.pc := rfl

/-- Two states with the same words and the same memory are the same. -/
theorem state_ext {s t : State} (r : ∀ r, t.reg r = s.reg r) (m : t.mem = s.mem) : t = s := by
  cases s; cases t
  have h := fun x => r x
  simpa using ⟨h .af, h .bc, h .de, h .hl, h .sp, h .pc, m⟩

/-! ### `setReg` -/

@[simp] theorem setReg_mem (s : State) (r : Reg16) (v : Word) : (s.setReg r v).mem = s.mem := by cases r <;> rfl

@[simp] theorem reg_setReg_same (s : State) (r : Reg16) (v : Word) : (s.setReg r v).reg r = v := by cases r <;> rfl

theorem reg_setReg_ne (s : State) {r q : Reg16} (v : Word) (h : q ≠ r) : (s.setReg r v).reg q = s.reg q := by
  cases r <;> cases q <;> first | rfl | exact absurd rfl h

@[simp] theorem setReg_af_af (s : State) (v : Word) : (s.setReg .af v).af = v := rfl
@[simp] theorem setReg_af_bc (s : State) (v : Word) : (s.setReg .af v).bc = s.bc := rfl
@[simp] theorem setReg_af_de (s : State) (v : Word) : (s.setReg .af v).de = s.de := rfl
@[simp] theorem setReg_af_hl (s : State) (v : Word) : (s.setReg .af v).hl = s.hl := rfl
@[simp] theorem setReg_af_sp (s : State) (v : Word) : (s.setReg .af v).sp = s.sp := rfl
@[simp] theorem setReg_af_pc (s : State) (v : Word) : (s.setReg .af v).pc = s.pc := rfl
@[simp] theorem setReg_bc_af (s : State) (v : Word) : (s.setReg .bc v).af = s.af := rfl
@[simp] theorem setReg_bc_bc (s : State) (v : Word) : (s.setReg .bc v).bc = v := rfl
@[simp] theorem setReg_bc_de (s : State) (v : Word) : (s.setReg .bc v).de = s.de := rfl
@[simp] theorem setReg_bc_hl (s : State) (v : Word) : (s.setReg .bc v).hl = s.hl := rfl
@[simp] theorem setReg_bc_sp (s : State) (v : Word) : (s.setReg .bc v).sp = s.sp := rfl
@[simp] theorem setReg_bc_pc (s : State) (v : Word) : (s.setReg .bc v).pc = s.pc := rfl
@[simp] theorem setReg_de_af (s : State) (v : Word) : (s.setReg .de v).af = s.af := rfl
@[simp] theorem setReg_de_bc (s : State) (v : Word) : (s.setReg .de v).bc = s.bc := rfl
@[simp] theorem setReg_de_de (s : State) (v : Word) : (s.setReg .de v).de = v := rfl
@[simp] theorem setReg_de_hl (s : State) (v : Word) : (s.setReg .de v).hl = s.hl := rfl
@[simp] theorem setReg_de_sp (s : State) (v : Word) : (s.setReg .de v).sp = s.sp := rfl
@[simp] theorem setReg_de_pc (s : State) (v : Word) : (s.setReg .de v).pc = s.pc := rfl
@[simp] theorem setReg_hl_af (s : State) (v : Word) : (s.setReg .hl v).af = s.af := rfl
@[simp] theorem setReg_hl_bc (s : State) (v : Word) : (s.setReg .hl v).bc = s.bc := rfl
@[simp] theorem setReg_hl_de (s : State) (v : Word) : (s.setReg .hl v).de = s.de := rfl
@[simp] theorem setReg_hl_hl (s : State) (v : Word) : (s.setReg .hl v).hl = v := rfl
@[simp] theorem setReg_hl_sp (s : State) (v : Word) : (s.setReg .hl v).sp = s.sp := rfl
@[simp] theorem setReg_hl_pc (s : State) (v : Word) : (s.setReg .hl v).pc = s.pc := rfl
@[simp] theorem setReg_sp_af (s : State) (v : Word) : (s.setReg .sp v).af = s.af := rfl
@[simp] theorem setReg_sp_bc (s : State) (v : Word) : (s.setReg .sp v).bc = s.bc := rfl
@[simp] theorem setReg_sp_de (s : State) (v : Word) : (s.setReg .sp v).de = s.de := rfl
@[simp] theorem setReg_sp_hl (s : State) (v : Word) : (s.setReg .sp v).hl = s.hl := rfl
@[simp] theorem setReg_sp_sp (s : State) (v : Word) : (s.setReg .sp v).sp = v := rfl
@[simp] theorem setReg_sp_pc (s : State) (v : Word) : (s.setReg .sp v).pc = s.pc := rfl
@[simp] theorem setReg_pc_af (s : State) (v : Word) : (s.setReg .pc v).af = s.af := rfl
@[simp] theorem setReg_pc_bc (s : State) (v : Word) : (s.setReg .pc v).bc = s.bc := rfl
@[simp] theorem setReg_pc_de (s : State) (v : Word) : (s.setReg .pc v).de = s.de := rfl
@[simp] theorem setReg_pc_hl (s : State) (v : Word) : (s.setReg .pc v).hl = s.hl := rfl
@[simp] theorem setReg_pc_sp (s : State) (v : Word) : (s.setReg .pc v).sp = s.sp := rfl
@[simp] theorem setReg_pc_pc (s : State) (v : Word) : (s.setReg .pc v).pc = v := rfl

/-! ### `writeByte`, `advancePC`, `initialise`, `declareFlags` -/

@[simp] theorem writeByte_af (s : State) (a : Word) (v : Byte) : (s.writeByte a v).af = s.af := rfl
@[simp] theorem writeByte_bc (s : State) (a : Word) (v : Byte) : (s.writeByte a v).bc = s.bc := rfl
@[simp] theorem writeByte_de (s : State) (a : Word) (v : Byte) : (s.writeByte a v).de = s.de := rfl
@[simp] theorem writeByte_hl (s : State) (a : Word) (v : Byte) : (s.writeByte a v).hl = s.hl := rfl
@[simp] theorem writeByte_sp (s : State) (a : Word) (v : Byte) : (s.writeByte a v).sp = s.sp := rfl
@[simp] theorem writeByte_pc (s : State) (a : Word) (v : Byte) : (s.writeByte a v).pc = s.pc := rfl
@[simp] theorem writeByte_reg (s : State) (a : Word) (v : Byte) (r : Reg16) : (s.writeByte a v).reg r = s.reg r := by
  cases r <;> rfl
@[simp] theorem writeWord_af (s : State) (a v : Word) : (s.writeWord a v).af = s.af := rfl
@[simp] theorem writeWord_bc (s : State) (a v : Word) : (s.writeWord a v).bc = s.bc := rfl
@[simp] theorem writeWord_de (s : State) (a v : Word) : (s.writeWord a v).de = s.de := rfl
@[simp] theorem writeWord_hl (s : State) (a v : Word) : (s.writeWord a v).hl = s.hl := rfl
@[simp] theorem writeWord_sp (s : State) (a v : Word) : (s.writeWord a v).sp = s.sp := rfl
@[simp] theorem writeWord_pc (s : State) (a v : Word) : (s.writeWord a v).pc = s.pc := rfl
@[simp] theorem advancePC_af (s : State) (k : Format) : (s.advancePC k).af = s.af := rfl
@[simp] theorem advancePC_bc (s : State) (k : Format) : (s.advancePC k).bc = s.bc := rfl
@[simp] theorem advancePC_de (s : State) (k : Format) : (s.advancePC k).de = s.de := rfl
@[simp] theorem advancePC_hl (s : State) (k : Format) : (s.advancePC k).hl = s.hl := rfl
@[simp] theorem advancePC_sp (s : State) (k : Format) : (s.advancePC k).sp = s.sp := rfl
@[simp] theorem advancePC_pc (s : State) (k : Format) : (s.advancePC k).pc = s.pc + BitVec.ofNat 16 k.length := rfl
@[simp] theorem advancePC_mem (s : State) (k : Format) : (s.advancePC k).mem = s.mem := rfl
@[simp] theorem initialise_af (s : State) : s.initialise.af = 0 := rfl
@[simp] theorem initialise_bc (s : State) : s.initialise.bc = 0 := rfl
@[simp] theorem initialise_de (s : State) : s.initialise.de = 0 := rfl
@[simp] theorem initialise_hl (s : State) : s.initialise.hl = 0 := rfl
@[simp] theorem initialise_sp (s : State) : s.initialise.sp = 0 := rfl
@[simp] theorem initialise_pc (s : State) : s.initialise.pc = 0 := rfl
@[simp] theorem initialise_mem (s : State) : s.initialise.mem = s.mem := rfl
@[simp] theorem declareFlags_bc (s : State) (d : FlagDecl) : (s.declareFlags d).bc = s.bc := rfl
@[simp] theorem declareFlags_de (s : State) (d : FlagDecl) : (s.declareFlags d).de = s.de := rfl
@[simp] theorem declareFlags_hl (s : State) (d : FlagDecl) : (s.declareFlags d).hl = s.hl := rfl
@[simp] theorem declareFlags_sp (s : State) (d : FlagDecl) : (s.declareFlags d).sp = s.sp := rfl
@[simp] theorem declareFlags_pc (s : State) (d : FlagDecl) : (s.declareFlags d).pc = s.pc := rfl
@[simp] theorem declareFlags_mem (s : State) (d : FlagDecl) : (s.declareFlags d).mem = s.mem := rfl

/-! ### Reading a byte depends on Memory alone -/

theorem readByte_congr {s t : State} (h : t.mem = s.mem) (a : Word) : t.readByte a = s.readByte a := by
  simp [State.readByte, h]

@[simp] theorem readByte_setReg (s : State) (r : Reg16) (v : Word) (a : Word) :
    (s.setReg r v).readByte a = s.readByte a := readByte_congr (setReg_mem s r v) a

@[simp] theorem readByte_advancePC (s : State) (k : Format) (a : Word) : (s.advancePC k).readByte a = s.readByte a := rfl

@[simp] theorem readByte_declareFlags (s : State) (d : FlagDecl) (a : Word) :
    (s.declareFlags d).readByte a = s.readByte a := rfl

@[simp] theorem readByte_initialise (s : State) (a : Word) : s.initialise.readByte a = s.readByte a := rfl

/-! ### Halves -/

theorem half_high (s : State) (r : Reg16) : s.half r .high = (s.reg r).extractLsb' 8 8 := high_eq _
theorem half_low (s : State) (r : Reg16) : s.half r .low = (s.reg r).extractLsb' 0 8 := low_eq _

theorem half_congr {s t : State} {r : Reg16} (e : t.reg r = s.reg r) (h : Half) : t.half r h = s.half r h := by
  simp [State.half, e]

@[simp] theorem setHalf_mem (s : State) (r : Reg16) (h : Half) (v : Byte) : (s.setHalf r h v).mem = s.mem := by
  simp [State.setHalf]

@[simp] theorem readByte_setHalf (s : State) (r : Reg16) (h : Half) (v : Byte) (a : Word) :
    (s.setHalf r h v).readByte a = s.readByte a := readByte_congr (setHalf_mem s r h v) a

@[simp] theorem setReg8_mem (s : State) (r : Reg8) (v : Byte) : (s.setReg8 r v).mem = s.mem := setHalf_mem _ _ _ _

/-- What a half write does to every half of every word. -/
theorem half_setHalf (s : State) (r q : Reg16) (h g : Half) (v : Byte) :
    (s.setHalf r h v).half q g = if q = r ∧ g = h then v else s.half q g := by
  by_cases e : q = r
  · subst e; simp [State.half, State.setHalf, halfOf_setHalfOf]
  · simp [e, half_congr (reg_setReg_ne s (setHalfOf (s.reg r) h v) e), State.setHalf]

theorem reg_setHalf_ne (s : State) {r q : Reg16} (h : Half) (v : Byte) (e : q ≠ r) :
    (s.setHalf r h v).reg q = s.reg q := reg_setReg_ne s _ e

end Sys2Proof.Machine
end

