-- ==== Sys2Proof/Laws/Memory.lean ====
section
/-! SUPPORT. Memory: read after write, and the canonical form that every write keeps. -/

namespace Sys2Proof.Machine

theorem lookup_insert_same (m : Memory) (a : Nat) (v : Byte) : (m.insert a v).lookup a = some v := by
  induction m with
  | nil => simp [Memory.insert, Memory.lookup]
  | cons c m ih =>
    obtain ⟨k, b⟩ := c
    unfold Memory.insert
    split
    · simp [Memory.lookup]
    · split
      · simp [Memory.lookup]
      · have : k ≠ a := fun h => by simp_all
        simp [Memory.lookup, this, ih]

theorem lookup_insert_ne (m : Memory) {a b : Nat} (v : Byte) (h : b ≠ a) :
    (m.insert a v).lookup b = m.lookup b := by
  induction m with
  | nil => simp [Memory.insert, Memory.lookup, Ne.symm h]
  | cons c m ih =>
    obtain ⟨k, w⟩ := c
    unfold Memory.insert
    split
    · simp [Memory.lookup, Ne.symm h]
    · split
      · subst_vars; simp [Memory.lookup, Ne.symm h]
      · simp [Memory.lookup, ih]

/-- Every address of a memory after an insertion is the new one or an old one. -/
theorem mem_insert {m : Memory} {a : Nat} {v : Byte} {c : Host.Cell} (h : c ∈ m.insert a v) : c.1 = a ∨ c ∈ m := by
  induction m with
  | nil => simp [Memory.insert] at h; simp [h]
  | cons d m ih =>
    obtain ⟨k, w⟩ := d
    unfold Memory.insert at h
    split at h
    · rcases List.mem_cons.mp h with rfl | h
      · simp
      · exact .inr h
    · split at h
      · rcases List.mem_cons.mp h with rfl | h
        · simp
        · exact .inr (List.mem_cons_of_mem _ h)
      · rcases List.mem_cons.mp h with rfl | h
        · simp
        · exact (ih h).imp id (List.mem_cons_of_mem _)

theorem insert_pairwise {m : Memory} (a : Nat) (v : Byte) (h : m.Pairwise (fun c d => c.1 < d.1)) :
    (m.insert a v).Pairwise (fun c d => c.1 < d.1) := by
  induction m with
  | nil => simp [Memory.insert]
  | cons d m ih =>
    obtain ⟨k, w⟩ := d
    obtain ⟨lt, tail⟩ := List.pairwise_cons.mp h
    unfold Memory.insert
    split
    · rename_i hk
      refine List.pairwise_cons.mpr ⟨fun c hc => ?_, h⟩
      rcases List.mem_cons.mp hc with rfl | hc
      · exact hk
      · exact Nat.lt_trans hk (lt c hc)
    · split
      · subst_vars
        exact List.pairwise_cons.mpr ⟨lt, tail⟩
      · refine List.pairwise_cons.mpr ⟨fun c hc => ?_, ih tail⟩
        rcases mem_insert hc with e | hc
        · simp only [e]; omega
        · exact lt c hc

/-- Memory's canonical form is kept by every insertion of an address inside the address space. -/
theorem insert_wf {m : Memory} {a : Nat} (v : Byte) (ha : a < 65536) (h : m.wf) : (m.insert a v).wf :=
  ⟨insert_pairwise a v h.1, fun c hc => (mem_insert hc).elim (fun e => e ▸ ha) (h.2 c)⟩

/-! ### Bytes of the state -/

@[simp] theorem readByte_writeByte_same (s : State) (a : Word) (v : Byte) : (s.writeByte a v).readByte a = v := by
  simp [State.readByte, State.writeByte, lookup_insert_same]

theorem readByte_writeByte_ne (s : State) {a b : Word} (v : Byte) (h : b ≠ a) :
    (s.writeByte a v).readByte b = s.readByte b := by
  have : b.toNat ≠ a.toNat := fun e => h (BitVec.eq_of_toNat_eq e)
  simp [State.readByte, State.writeByte, lookup_insert_ne _ _ this]

theorem readByte_writeByte (s : State) (a b : Word) (v : Byte) :
    (s.writeByte a v).readByte b = if b = a then v else s.readByte b := by
  split
  · subst_vars; simp
  · exact readByte_writeByte_ne s v ‹_›

/-- An address and the next one are different, also at the top of the address space. -/
theorem succ_ne (a : Word) : a + 1 ≠ a := by simp

theorem ne_succ (a : Word) : a ≠ a + 1 := (succ_ne a).symm

/-- What the two-byte store does to every byte. -/
theorem readByte_writeWord (s : State) (a b v : Word) :
    (s.writeWord a v).readByte b = if b = a + 1 then v.high else if b = a then v.low else s.readByte b := by
  simp only [State.writeWord, readByte_writeByte]

@[simp] theorem writeByte_mem_wf {s : State} (a : Word) (v : Byte) (h : s.mem.wf) : (s.writeByte a v).mem.wf :=
  insert_wf v a.isLt h

theorem writeWord_mem_wf {s : State} (a v : Word) (h : s.mem.wf) : (s.writeWord a v).mem.wf :=
  writeByte_mem_wf _ _ (writeByte_mem_wf _ _ h)

theorem readWord_eq (s : State) (a : Word) : s.readWord a = s.readByte (a + 1) ++ s.readByte a := join_eq _ _

theorem imm16_eq (s : State) : s.imm16 = s.readByte (s.pc + 2) ++ s.readByte (s.pc + 1) := by
  have : s.pc + 1 + 1 = s.pc + 2 := by rw [BitVec.add_assoc]; rfl
  rw [State.imm16, State.operandAddr, readWord_eq, reg_pc, this]

theorem imm8_eq (s : State) : s.imm8 = s.readByte (s.pc + 1) := rfl

end Sys2Proof.Machine
end

