-- ==== Sys2Proof/Laws/Flags.lean ====
section
/-! SUPPORT. The Flags Model bit by bit: what a handler's declaration does to every bit of `AF`. -/

namespace Sys2Proof.Machine

/-- The bit of `AF` that holds a flag (R27). -/
def flagBit : Flag → Nat
  | .z => 7
  | .n => 6
  | .h => 5
  | .c => 4

/-- The value a disposition leaves a flag with. -/
def Disposition.value : Disposition → Bool → Bool
  | .set, _ => true
  | .clear, _ => false
  | .setIf c, _ => c
  | .unchanged, old => old

theorem getLsbD_flagMask (f : Flag) (i : Nat) : (flagMask f).getLsbD i = decide (i = flagBit f) := by
  by_cases h : i < 16
  · interval_cases i <;> cases f <;> decide
  · have : flagBit f < 16 := by cases f <;> decide
    rw [BitVec.getLsbD_of_ge _ _ (by omega)]
    symm; simp; omega

theorem flagIsSet_eq (af : Word) (f : Flag) : flagIsSet af f = af.getLsbD (flagBit f) := by
  have key : af &&& flagMask f = if af.getLsbD (flagBit f) then flagMask f else 0 := by
    apply BitVec.eq_of_getLsbD_eq; intro i _
    by_cases h : i = flagBit f
    · subst h; cases hb : af.getLsbD (flagBit f) <;> simp [getLsbD_flagMask, hb]
    · cases hb : af.getLsbD (flagBit f) <;> simp [getLsbD_flagMask, h]
  unfold flagIsSet
  rw [key]
  cases af.getLsbD (flagBit f) <;> cases f <;> decide

theorem flag_eq (s : State) (f : Flag) : s.flag f = s.af.getLsbD (flagBit f) := flagIsSet_eq _ _

theorem getLsbD_apply (d : Disposition) (f : Flag) (af : Word) (i : Nat) :
    (d.apply f af).getLsbD i = if i = flagBit f then d.value (af.getLsbD i) else af.getLsbD i := by
  have lt : flagBit f < 16 := by cases f <;> decide
  by_cases h : i = flagBit f
  · subst h
    rcases d with _ | _ | (_ | _) | _ <;>
      simp [Disposition.apply, Disposition.value, flagSet, flagClear, getLsbD_flagMask, lt]
  · by_cases hi : i < 16
    · rcases d with _ | _ | (_ | _) | _ <;>
        simp only [Disposition.apply, flagSet, flagClear, BitVec.getLsbD_or, BitVec.getLsbD_and, BitVec.getLsbD_not,
          getLsbD_flagMask, h, hi, decide_false, decide_true, Bool.or_false, Bool.not_false, Bool.and_true, if_false]
    · simp only [h, if_false]
      rw [BitVec.getLsbD_of_ge _ _ (by omega), BitVec.getLsbD_of_ge _ _ (by omega)]

/-- What a declaration does to every bit of `AF`: bits 7 to 4 by the four dispositions, every other bit kept. -/
theorem getLsbD_declareFlags (s : State) (d : FlagDecl) (i : Nat) :
    (s.declareFlags d).af.getLsbD i =
      if i = 7 then d.z.value (s.af.getLsbD 7)
      else if i = 6 then d.n.value (s.af.getLsbD 6)
      else if i = 5 then d.h.value (s.af.getLsbD 5)
      else if i = 4 then d.c.value (s.af.getLsbD 4)
      else s.af.getLsbD i := by
  simp only [State.declareFlags, setReg_af_af, reg_af, getLsbD_apply, flagBit]
  split_ifs <;> first | omega | (subst_vars; simp_all)

theorem flag_declareFlags_z (s : State) (d : FlagDecl) : (s.declareFlags d).flag .z = d.z.value (s.flag .z) := by
  rw [flag_eq, flag_eq]; exact getLsbD_declareFlags s d 7

theorem flag_declareFlags_n (s : State) (d : FlagDecl) : (s.declareFlags d).flag .n = d.n.value (s.flag .n) := by
  rw [flag_eq, flag_eq]; exact getLsbD_declareFlags s d 6

theorem flag_declareFlags_h (s : State) (d : FlagDecl) : (s.declareFlags d).flag .h = d.h.value (s.flag .h) := by
  rw [flag_eq, flag_eq]; exact getLsbD_declareFlags s d 5

theorem flag_declareFlags_c (s : State) (d : FlagDecl) : (s.declareFlags d).flag .c = d.c.value (s.flag .c) := by
  rw [flag_eq, flag_eq]; exact getLsbD_declareFlags s d 4

/-- A declaration keeps `A`. -/
theorem declareFlags_af_high (s : State) (d : FlagDecl) :
    (s.declareFlags d).af.extractLsb' 8 8 = s.af.extractLsb' 8 8 := by
  apply BitVec.eq_of_getLsbD_eq; intro i h
  simp only [BitVec.getLsbD_extractLsb', h, decide_true, Bool.true_and, getLsbD_declareFlags]
  split_ifs <;> first | omega | rfl

/-- The low four bits of a word, bit by bit. -/
theorem lowNibble_eq_iff (v w : Word) : v &&& 0x000F = w &&& 0x000F ↔ ∀ i < 4, v.getLsbD i = w.getLsbD i := by
  constructor
  · intro e i hi
    have := congrArg (fun x => x.getLsbD i) e
    interval_cases i <;> simpa using this
  · intro e
    apply BitVec.eq_of_getLsbD_eq; intro i hi
    by_cases h4 : i < 4
    · simp [e i h4]
    · interval_cases i <;> first | omega | simp

/-- No flag operation sets or clears bits 3 to 0 (R29). -/
theorem declareFlags_lowNibble (s : State) (d : FlagDecl) : (s.declareFlags d).af &&& 0x000F = s.af &&& 0x000F := by
  rw [lowNibble_eq_iff]; intro i hi
  rw [getLsbD_declareFlags]
  split_ifs <;> first | omega | rfl

/-- A write of the accumulator keeps the flags byte. -/
theorem setA_af (s : State) (v : Byte) : (s.setA v).af = v ++ s.af.extractLsb' 0 8 := setHigh_eq _ _

theorem lowNibble_append (hi lo : Byte) : (hi ++ lo : Word) &&& 0x000F = lo.setWidth 16 &&& 0x000F := by
  rw [lowNibble_eq_iff]; intro i hi
  rw [BitVec.getLsbD_append]
  have : i < 8 := by omega
  have : i < 16 := by omega
  simp [*]

theorem lowNibble_low (w : Word) : (w.extractLsb' 0 8).setWidth 16 &&& 0x000F = w &&& 0x000F := by
  rw [lowNibble_eq_iff]; intro i hi
  interval_cases i <;> simp

end Sys2Proof.Machine
end

