-- ==== Sys2Proof/Laws/Handlers.lean ====
section
/-! SUPPORT. One lemma per shared handler of the instruction rules, saying everything it can do. -/

namespace Sys2Proof.Machine

/-! ### Flags and low bits as functions of the flags byte -/

theorem flag_eq_half (s : State) (f : Flag) : s.flag f = (s.half .af .low).getLsbD (flagBit f) := by
  rw [flag_eq, half_low, reg_af]
  cases f <;> simp [flagBit]

theorem flag_congr {s t : State} (h : t.half .af .low = s.half .af .low) (f : Flag) : t.flag f = s.flag f := by
  rw [flag_eq_half, flag_eq_half, h]

theorem sameLowNibble_of_half {s t : State} (h : t.half .af .low = s.half .af .low) : SameLowNibble s t := by
  rw [half_low, half_low] at h
  unfold SameLowNibble
  rw [← lowNibble_low, ← lowNibble_low s.af]
  exact congrArg (fun b => BitVec.setWidth 16 b &&& 0x000F) h

theorem half_af_low_setHalf {s : State} {r : Reg16} {h : Half} (v : Byte) (e : (r, h) ≠ (.af, .low)) :
    (s.setHalf r h v).half .af .low = s.half .af .low := by
  rw [half_setHalf, if_neg]
  rintro ⟨rfl, rfl⟩; exact e rfl

/-- A declaration of flags touches the flags byte alone. -/
theorem half_declareFlags {s : State} (d : FlagDecl) {q : Reg16} {g : Half} (e : (q, g) ≠ (.af, .low)) :
    (s.declareFlags d).half q g = s.half q g := by
  cases q
  case af =>
    cases g
    · rw [half_high, half_high]; exact declareFlags_af_high s d
    · exact absurd rfl e
  all_goals rfl

theorem reg8Target_ne (r : Reg8) : (reg8Word r, reg8Half r) ≠ (Reg16.af, Half.low) := by cases r <;> decide

theorem reg8Word_ne_pc (r : Reg8) : reg8Word r ≠ .pc := by cases r <;> decide

/-- A half write then a declaration of flags: the shape of `INC r`, `DEC r` and the rotates. -/
theorem setReg8_declareFlags_spec (r : Reg8) (v : Byte) (d : FlagDecl) (s : State) :
    let t := (s.setReg8 r v).declareFlags d
    t.reg8 r = v ∧ t.flag .z = d.z.value (s.flag .z) ∧ t.flag .n = d.n.value (s.flag .n) ∧
    t.flag .h = d.h.value (s.flag .h) ∧ t.flag .c = d.c.value (s.flag .c) ∧
    SameHalvesBut [(reg8Word r, reg8Half r), (.af, .low)] s t ∧ SameLowNibble s t ∧ t.pc = s.pc ∧ t.mem = s.mem := by
  have low := half_af_low_setHalf (s := s) v (reg8Target_ne r)
  have old := fun f => flag_congr low f
  refine ⟨?_, ?_, ?_, ?_, ?_, ?_, ?_, ?_, setReg8_mem s r v⟩
  · show State.half _ _ _ = v
    rw [half_declareFlags d (reg8Target_ne r)]
    exact (half_setHalf ..).trans (if_pos ⟨rfl, rfl⟩)
  · rw [flag_declareFlags_z]; exact congrArg _ (old .z)
  · rw [flag_declareFlags_n]; exact congrArg _ (old .n)
  · rw [flag_declareFlags_h]; exact congrArg _ (old .h)
  · rw [flag_declareFlags_c]; exact congrArg _ (old .c)
  · intro q g _ ne
    simp only [List.mem_cons, List.not_mem_nil, or_false, not_or] at ne
    rw [half_declareFlags d ne.2]
    refine (half_setHalf ..).trans (if_neg ?_)
    rintro ⟨rfl, rfl⟩; exact ne.1 rfl
  · exact (declareFlags_lowNibble _ d).trans (sameLowNibble_of_half low)
  · exact reg_setReg_ne s _ (reg8Word_ne_pc r).symm

/-- `incReg8` (R150). -/
theorem incReg8_spec (r : Reg8) (s : State) :
    (incReg8 r s).reg8 r = s.reg8 r + 1 ∧ (incReg8 r s).flag .z = (s.reg8 r + 1 == 0) ∧
    (incReg8 r s).flag .n = false ∧ (incReg8 r s).flag .h = incHalfCarry (s.reg8 r) ∧
    (incReg8 r s).flag .c = s.flag .c ∧
    SameHalvesBut [(reg8Word r, reg8Half r), (.af, .low)] s (incReg8 r s) ∧ SameLowNibble s (incReg8 r s) ∧
    (incReg8 r s).pc = s.pc ∧ (incReg8 r s).mem = s.mem :=
  setReg8_declareFlags_spec r _ _ s

/-- `decReg8` (R150). -/
theorem decReg8_spec (r : Reg8) (s : State) :
    (decReg8 r s).reg8 r = s.reg8 r - 1 ∧ (decReg8 r s).flag .z = (s.reg8 r - 1 == 0) ∧
    (decReg8 r s).flag .n = true ∧ (decReg8 r s).flag .h = decHalfCarry (s.reg8 r) ∧
    (decReg8 r s).flag .c = s.flag .c ∧
    SameHalvesBut [(reg8Word r, reg8Half r), (.af, .low)] s (decReg8 r s) ∧ SameLowNibble s (decReg8 r s) ∧
    (decReg8 r s).pc = s.pc ∧ (decReg8 r s).mem = s.mem :=
  setReg8_declareFlags_spec r _ _ s

/-- The result byte of a left rotate. -/
def rotatedLeft (useCarry : Bool) (s : State) : Byte :=
  (s.a <<< 1) ||| bitByte (if useCarry then s.flag .c else s.a.getLsbD 7)

/-- The result byte of a right rotate. -/
def rotatedRight (useCarry : Bool) (s : State) : Byte :=
  (s.a >>> 1) ||| (bitByte (if useCarry then s.flag .c else s.a.getLsbD 0) <<< 7)

/-- `rotateLeftCarry` (R184). -/
theorem rotateLeftCarry_spec (useCarry : Bool) (s : State) :
    let t := rotateLeftCarry useCarry s
    t.a = rotatedLeft useCarry s ∧ t.flag .z = false ∧ t.flag .n = false ∧ t.flag .h = false ∧
    t.flag .c = s.a.getLsbD 7 ∧ SameHalvesBut [(.af, .high), (.af, .low)] s t ∧ SameLowNibble s t ∧ t.pc = s.pc ∧
    t.mem = s.mem :=
  setReg8_declareFlags_spec .a (rotatedLeft useCarry s) (rotateFlags (s.a.getLsbD 7)) s

/-- `rotateRightCarry` (R184). -/
theorem rotateRightCarry_spec (useCarry : Bool) (s : State) :
    let t := rotateRightCarry useCarry s
    t.a = rotatedRight useCarry s ∧ t.flag .z = false ∧ t.flag .n = false ∧ t.flag .h = false ∧
    t.flag .c = s.a.getLsbD 0 ∧ SameHalvesBut [(.af, .high), (.af, .low)] s t ∧ SameLowNibble s t ∧ t.pc = s.pc ∧
    t.mem = s.mem :=
  setReg8_declareFlags_spec .a (rotatedRight useCarry s) (rotateFlags (s.a.getLsbD 0)) s

/-- `addPairs` (R195). -/
theorem addPairs_spec (p : Pair) (s : State) :
    let t := addPairs p s
    t.hl = s.hl + s.reg (pairReg p) ∧ t.flag .z = s.flag .z ∧ t.flag .n = false ∧
    t.flag .h = addHalfCarry s.hl (s.reg (pairReg p)) ∧ t.flag .c = addCarry s.hl (s.reg (pairReg p)) ∧
    SameHalvesBut [(.hl, .high), (.hl, .low), (.af, .low)] s t ∧ SameLowNibble s t ∧ t.pc = s.pc ∧ t.mem = s.mem := by
  refine ⟨rfl, ?_, ?_, ?_, ?_, ?_, ?_, rfl, rfl⟩
  · exact flag_declareFlags_z _ _
  · exact flag_declareFlags_n _ _
  · exact flag_declareFlags_h _ _
  · exact flag_declareFlags_c _ _
  · intro q g _ ne
    simp only [List.mem_cons, List.not_mem_nil, or_false, not_or] at ne
    refine (half_declareFlags _ ne.2.2).trans (half_congr (reg_setReg_ne s _ ?_) g)
    rintro rfl; cases g
    · exact ne.1 rfl
    · exact ne.2.1 rfl
  · exact declareFlags_lowNibble _ _

/-- `loadPairImmediate` (R120). -/
theorem loadPairImmediate_eq (p : Pair) (s : State) :
    loadPairImmediate p s = s.setReg (pairReg p) (s.readByte (s.pc + 2) ++ s.readByte (s.pc + 1)) := by
  rw [loadPairImmediate, imm16_eq]

/-- `loadAccIndirect` (R139): the accumulator and the addressing word. -/
theorem loadAccIndirect_eq (ind : Indirect) (s : State) :
    loadAccIndirect ind s =
      { s.setReg (indirectReg ind) (indirectAfter ind (s.reg (indirectReg ind))) with
        af := s.readByte (s.reg (indirectReg ind)) ++ s.af.extractLsb' 0 8 } := by
  have h := setA_af s (s.readByte (s.reg (indirectReg ind)))
  cases ind <;> simp only [indirectReg, reg_bc, reg_de, reg_hl] at h ⊢ <;> rw [← h] <;> rfl

/-- `storeAccToMemory` (R138). -/
theorem storeAccToMemory_eq (p : Pair) (s : State) :
    storeAccToMemory p s = s.writeByte (s.reg (pairReg p)) (s.af.extractLsb' 8 8) := by
  rw [storeAccToMemory, State.a, half_high, reg_af]

/-- `loadImmediate8` (R177). -/
theorem loadImmediate8_eq (r : Reg8) (s : State) : loadImmediate8 r s = s.setReg8 r (s.readByte (s.pc + 1)) := rfl

/-- `storeSPToMemory` (R190), byte by byte. -/
theorem storeSPToMemory_readByte (s : State) (b : Word) :
    (storeSPToMemory s).readByte b =
      if b = s.imm16 + 1 then s.sp.extractLsb' 8 8 else if b = s.imm16 then s.sp.extractLsb' 0 8 else s.readByte b := by
  simp only [storeSPToMemory, readByte_writeWord, reg_sp, high_eq, low_eq]

/-! ### The sum `PC + 2 + e` over the integers (R205) -/

theorem pc_add_two (pc : Word) : pc + 2 = BitVec.ofInt 16 (pc.toNat + 2) := by
  apply BitVec.eq_of_toInt_eq
  rw [BitVec.toInt_add, BitVec.toInt_ofInt, BitVec.toInt_eq_toNat_bmod]
  simp

theorem pc_add_disp (pc : Word) (e : Byte) :
    pc + 2 + e.signExtend 16 = BitVec.ofInt 16 (pc.toNat + 2 + e.toInt) := by
  apply BitVec.eq_of_toInt_eq
  have se : (e.signExtend 16).toInt = e.toInt := BitVec.toInt_signExtend_of_le (by decide)
  rw [BitVec.toInt_add, se, pc_add_two, BitVec.toInt_ofInt, BitVec.toInt_ofInt]
  simp

end Sys2Proof.Machine
end

