-- ==== Sys2Proof/Laws/PerInstr.lean ====
section
/-! SUPPORT. Facts about each instruction as syntax, one lemma per constructor. -/

namespace Sys2Proof.Laws.Encoding

open Sys2Proof

/-- The instruction is read back from its `op_in`, its opcode is admitted, and its length is at most 3 (R70, R78). -/
def Statement (i : Instr) : Prop :=
  decode (encode i) = some i ∧ i.admittedIn Config.admitted = true ∧ i.length ≤ 3

theorem ldBCnn : Statement .ldBCnn := by unfold Statement; decide
theorem ldIndBCA : Statement .ldIndBCA := by unfold Statement; decide
theorem incBC : Statement .incBC := by unfold Statement; decide
theorem incB : Statement .incB := by unfold Statement; decide
theorem decB : Statement .decB := by unfold Statement; decide
theorem ldBn : Statement .ldBn := by unfold Statement; decide
theorem rlca : Statement .rlca := by unfold Statement; decide
theorem ldIndNnSP : Statement .ldIndNnSP := by unfold Statement; decide
theorem addHLBC : Statement .addHLBC := by unfold Statement; decide
theorem ldAIndBC : Statement .ldAIndBC := by unfold Statement; decide
theorem decBC : Statement .decBC := by unfold Statement; decide
theorem incC : Statement .incC := by unfold Statement; decide
theorem decC : Statement .decC := by unfold Statement; decide
theorem ldCn : Statement .ldCn := by unfold Statement; decide
theorem rrca : Statement .rrca := by unfold Statement; decide
theorem ldDEnn : Statement .ldDEnn := by unfold Statement; decide
theorem ldIndDEA : Statement .ldIndDEA := by unfold Statement; decide
theorem incDE : Statement .incDE := by unfold Statement; decide
theorem incD : Statement .incD := by unfold Statement; decide
theorem decD : Statement .decD := by unfold Statement; decide
theorem ldDn : Statement .ldDn := by unfold Statement; decide
theorem rla : Statement .rla := by unfold Statement; decide
theorem jr : Statement .jr := by unfold Statement; decide
theorem addHLDE : Statement .addHLDE := by unfold Statement; decide
theorem ldAIndDE : Statement .ldAIndDE := by unfold Statement; decide
theorem decDE : Statement .decDE := by unfold Statement; decide
theorem incE : Statement .incE := by unfold Statement; decide
theorem decE : Statement .decE := by unfold Statement; decide
theorem ldEn : Statement .ldEn := by unfold Statement; decide
theorem rra : Statement .rra := by unfold Statement; decide
theorem jrNZ : Statement .jrNZ := by unfold Statement; decide
theorem ldHLnn : Statement .ldHLnn := by unfold Statement; decide
theorem incHL : Statement .incHL := by unfold Statement; decide
theorem incH : Statement .incH := by unfold Statement; decide
theorem decH : Statement .decH := by unfold Statement; decide
theorem ldHn : Statement .ldHn := by unfold Statement; decide
theorem jrZ : Statement .jrZ := by unfold Statement; decide
theorem addHLHL : Statement .addHLHL := by unfold Statement; decide
theorem ldAIndHLInc : Statement .ldAIndHLInc := by unfold Statement; decide
theorem decHL : Statement .decHL := by unfold Statement; decide
theorem incL : Statement .incL := by unfold Statement; decide
theorem decL : Statement .decL := by unfold Statement; decide
theorem ldLn : Statement .ldLn := by unfold Statement; decide
theorem jrNC : Statement .jrNC := by unfold Statement; decide
theorem ldSPnn : Statement .ldSPnn := by unfold Statement; decide
theorem incSP : Statement .incSP := by unfold Statement; decide
theorem jrC : Statement .jrC := by unfold Statement; decide
theorem addHLSP : Statement .addHLSP := by unfold Statement; decide
theorem ldAIndHLDec : Statement .ldAIndHLDec := by unfold Statement; decide
theorem decSP : Statement .decSP := by unfold Statement; decide
theorem incA : Statement .incA := by unfold Statement; decide
theorem decA : Statement .decA := by unfold Statement; decide
theorem ldAn : Statement .ldAn := by unfold Statement; decide
theorem extendedStub (low : Byte) : Statement (.extendedStub low) := ⟨decode_stub low, rfl, Nat.zero_le 3⟩

/-- The family, for every instruction. -/
theorem all : ∀ i : Instr, Statement i
  | .ldBCnn => ldBCnn
  | .ldIndBCA => ldIndBCA
  | .incBC => incBC
  | .incB => incB
  | .decB => decB
  | .ldBn => ldBn
  | .rlca => rlca
  | .ldIndNnSP => ldIndNnSP
  | .addHLBC => addHLBC
  | .ldAIndBC => ldAIndBC
  | .decBC => decBC
  | .incC => incC
  | .decC => decC
  | .ldCn => ldCn
  | .rrca => rrca
  | .ldDEnn => ldDEnn
  | .ldIndDEA => ldIndDEA
  | .incDE => incDE
  | .incD => incD
  | .decD => decD
  | .ldDn => ldDn
  | .rla => rla
  | .jr => jr
  | .addHLDE => addHLDE
  | .ldAIndDE => ldAIndDE
  | .decDE => decDE
  | .incE => incE
  | .decE => decE
  | .ldEn => ldEn
  | .rra => rra
  | .jrNZ => jrNZ
  | .ldHLnn => ldHLnn
  | .incHL => incHL
  | .incH => incH
  | .decH => decH
  | .ldHn => ldHn
  | .jrZ => jrZ
  | .addHLHL => addHLHL
  | .ldAIndHLInc => ldAIndHLInc
  | .decHL => decHL
  | .incL => incL
  | .decL => decL
  | .ldLn => ldLn
  | .jrNC => jrNC
  | .ldSPnn => ldSPnn
  | .incSP => incSP
  | .jrC => jrC
  | .addHLSP => addHLSP
  | .ldAIndHLDec => ldAIndHLDec
  | .decSP => decSP
  | .incA => incA
  | .decA => decA
  | .ldAn => ldAn
  | .extendedStub low => extendedStub low

end Sys2Proof.Laws.Encoding
end

