-- ==== Sys2Proof/Laws/Step.lean ====
section
/-! SUPPORT. What `exec`, `execute`, `transact` and `step` can answer. -/

namespace Sys2Proof.Machine

/-- What an instruction that completes can do, family by family: its handler, then the advance of `PC`, or a relative jump. -/
inductive Effect (s : State) : Instr → State → Prop where
  | ldPairImm (p : Pair) : Effect s (ldPairImm p) ((loadPairImmediate p s).advancePC .imm16)
  | stBC : Effect s .ldIndBCA ((storeAccToMemory .bc s).advancePC .implied)
  | stDE : Effect s .ldIndDEA ((storeAccToMemory .de s).advancePC .implied)
  | ldAccInd (ind : Indirect) : Effect s (ldAccInd ind) ((loadAccIndirect ind s).advancePC .implied)
  | incPair (p : Pair) : Effect s (incPair p) ((incPairWord p s).advancePC .implied)
  | decPair (p : Pair) : Effect s (decPair p) ((decPairWord p s).advancePC .implied)
  | incReg (r : Reg8) : Effect s (incReg r) ((incReg8 r s).advancePC .implied)
  | decReg (r : Reg8) : Effect s (decReg r) ((decReg8 r s).advancePC .implied)
  | ldRegImm (r : Reg8) : Effect s (ldRegImm r) ((loadImmediate8 r s).advancePC .imm8)
  | rotateLeft (c : Bool) : Effect s (if c then .rla else .rlca) ((rotateLeftCarry c s).advancePC .implied)
  | rotateRight (c : Bool) : Effect s (if c then .rra else .rrca) ((rotateRightCarry c s).advancePC .implied)
  | stSP : Effect s .ldIndNnSP ((storeSPToMemory s).advancePC .imm16)
  | addHL (p : Pair) : Effect s (addHL p) ((addPairs p s).advancePC .implied)
  | jr : Effect s .jr (jumpRelative none s)
  | jrNZ : Effect s .jrNZ (jumpRelative (some .nz) s)
  | jrZ : Effect s .jrZ (jumpRelative (some .z) s)
  | jrNC : Effect s .jrNC (jumpRelative (some .nc) s)
  | jrC : Effect s .jrC (jumpRelative (some .c) s)

/-- The effect of every instruction but the stub, by name. -/
theorem exec_effect {i : Instr} (h : i.format ≠ .stub) (s : State) : ∃ t, exec i s = .next t ∧ Effect s i t := by
  cases i
  case ldBCnn => exact ⟨_, rfl, .ldPairImm .bc⟩
  case ldDEnn => exact ⟨_, rfl, .ldPairImm .de⟩
  case ldHLnn => exact ⟨_, rfl, .ldPairImm .hl⟩
  case ldSPnn => exact ⟨_, rfl, .ldPairImm .sp⟩
  case ldIndBCA => exact ⟨_, rfl, .stBC⟩
  case ldIndDEA => exact ⟨_, rfl, .stDE⟩
  case ldAIndBC => exact ⟨_, rfl, .ldAccInd .bc⟩
  case ldAIndDE => exact ⟨_, rfl, .ldAccInd .de⟩
  case ldAIndHLInc => exact ⟨_, rfl, .ldAccInd .hlInc⟩
  case ldAIndHLDec => exact ⟨_, rfl, .ldAccInd .hlDec⟩
  case incBC => exact ⟨_, rfl, .incPair .bc⟩
  case incDE => exact ⟨_, rfl, .incPair .de⟩
  case incHL => exact ⟨_, rfl, .incPair .hl⟩
  case incSP => exact ⟨_, rfl, .incPair .sp⟩
  case decBC => exact ⟨_, rfl, .decPair .bc⟩
  case decDE => exact ⟨_, rfl, .decPair .de⟩
  case decHL => exact ⟨_, rfl, .decPair .hl⟩
  case decSP => exact ⟨_, rfl, .decPair .sp⟩
  case incB => exact ⟨_, rfl, .incReg .b⟩
  case incC => exact ⟨_, rfl, .incReg .c⟩
  case incD => exact ⟨_, rfl, .incReg .d⟩
  case incE => exact ⟨_, rfl, .incReg .e⟩
  case incH => exact ⟨_, rfl, .incReg .h⟩
  case incL => exact ⟨_, rfl, .incReg .l⟩
  case incA => exact ⟨_, rfl, .incReg .a⟩
  case decB => exact ⟨_, rfl, .decReg .b⟩
  case decC => exact ⟨_, rfl, .decReg .c⟩
  case decD => exact ⟨_, rfl, .decReg .d⟩
  case decE => exact ⟨_, rfl, .decReg .e⟩
  case decH => exact ⟨_, rfl, .decReg .h⟩
  case decL => exact ⟨_, rfl, .decReg .l⟩
  case decA => exact ⟨_, rfl, .decReg .a⟩
  case ldBn => exact ⟨_, rfl, .ldRegImm .b⟩
  case ldCn => exact ⟨_, rfl, .ldRegImm .c⟩
  case ldDn => exact ⟨_, rfl, .ldRegImm .d⟩
  case ldEn => exact ⟨_, rfl, .ldRegImm .e⟩
  case ldHn => exact ⟨_, rfl, .ldRegImm .h⟩
  case ldLn => exact ⟨_, rfl, .ldRegImm .l⟩
  case ldAn => exact ⟨_, rfl, .ldRegImm .a⟩
  case rlca => exact ⟨_, rfl, .rotateLeft false⟩
  case rrca => exact ⟨_, rfl, .rotateRight false⟩
  case rla => exact ⟨_, rfl, .rotateLeft true⟩
  case rra => exact ⟨_, rfl, .rotateRight true⟩
  case ldIndNnSP => exact ⟨_, rfl, .stSP⟩
  case addHLBC => exact ⟨_, rfl, .addHL .bc⟩
  case addHLDE => exact ⟨_, rfl, .addHL .de⟩
  case addHLHL => exact ⟨_, rfl, .addHL .hl⟩
  case addHLSP => exact ⟨_, rfl, .addHL .sp⟩
  case jr => exact ⟨_, rfl, .jr⟩
  case jrNZ => exact ⟨_, rfl, .jrNZ⟩
  case jrZ => exact ⟨_, rfl, .jrZ⟩
  case jrNC => exact ⟨_, rfl, .jrNC⟩
  case jrC => exact ⟨_, rfl, .jrC⟩
  case extendedStub => exact absurd rfl h

/-- Inversion: an instruction that answers a next state had the effect of its family. -/
theorem exec_cases {i : Instr} {s t : State} (h : exec i s = .next t) : Effect s i t := by
  by_cases f : i.format = .stub
  · cases i <;> first | (cases f; done) | cases h
  · obtain ⟨u, hu, e⟩ := exec_effect f s
    rw [hu, Host.Outcome.next.injEq] at h
    exact h ▸ e

/-- Every instruction but the stub completes (R220). -/
theorem exec_next {i : Instr} (h : i.format ≠ .stub) (s : State) : ∃ t, exec i s = .next t :=
  (exec_effect h s).imp fun _ e => e.1

/-- The stub is the one instruction that does not complete. -/
theorem exec_stub (low : Byte) (s : State) :
    exec (.extendedStub low) s = .refused (.extendedStub (Word.join 0xCB low)) := rfl

/-- What `execute` can do (R225): exactly one of three classes. -/
theorem execute_cases (opIn : Word) (s : State) :
    (∃ i t, decode opIn = some i ∧ i.format ≠ .stub ∧ exec i s = .next t ∧ execute opIn s = .next t) ∨
    (decode opIn = none ∧ execute opIn s = .fault (.unknownOpcode opIn)) ∨
    (opIn = Word.join 0xCB opIn.low ∧ decode opIn = some (.extendedStub opIn.low) ∧
      execute opIn s = .refused (.extendedStub opIn)) := by
  unfold execute executeIn
  cases h : decode opIn with
  | none =>
    have h' : decodeIn Config.admitted opIn = none := h
    simp [h', raiseUnknownOpcode]
  | some i =>
    have h' : decodeIn Config.admitted opIn = some i := h
    rcases decode_some h with ⟨rfl, e⟩ | ⟨_, _, ns, _⟩
    · right; right
      refine ⟨e, rfl, ?_⟩
      rw [h']; exact (exec_stub _ s).trans (by rw [← e])
    · obtain ⟨t, ht⟩ := exec_next ns s
      left; exact ⟨i, t, rfl, ns, ht, by rw [h']; exact ht⟩

theorem execute_of_decode {opIn : Word} {i : Instr} (h : decode opIn = some i) (s : State) :
    execute opIn s = exec i s := by
  have h' : decodeIn Config.admitted opIn = some i := h
  simp [execute, executeIn, h']

theorem execute_of_unknown {opIn : Word} (h : decode opIn = none) (s : State) :
    execute opIn s = .fault (.unknownOpcode opIn) := by
  have h' : decodeIn Config.admitted opIn = none := h
  simp [execute, executeIn, h', raiseUnknownOpcode]

theorem transact_of_next {opIn : Word} {s t : State} (h : execute opIn s = .next t) :
    transact opIn s = ⟨t, .done⟩ := by simp [transact, h]

theorem transact_of_unknown {opIn : Word} (h : decode opIn = none) (s : State) :
    transact opIn s = ⟨s, .unknownOpcode opIn⟩ := by simp [transact, execute_of_unknown h]

theorem transact_of_refused {opIn : Word} {s : State} {r : Refusal} (h : execute opIn s = .refused r) :
    transact opIn s = ⟨s, .extendedStub opIn⟩ := by simp [transact, h]

/-- A transaction ends with the state it started from, or with the state of an instruction that completed. -/
theorem transact_state (opIn : Word) (s : State) :
    (transact opIn s).state = s ∨ ∃ i, exec i s = .next (transact opIn s).state := by
  rcases execute_cases opIn s with ⟨i, t, _, _, hx, h⟩ | ⟨h, _⟩ | ⟨_, _, h⟩
  · right; exact ⟨i, by rw [transact_of_next h]; exact hx⟩
  · left; rw [transact_of_unknown h]
  · left; rw [transact_of_refused h]

/-- A step that answers a next state ran an instruction that completed. -/
theorem step_next {s t : State} (h : step s = .next t) : ∃ i, decode s.fetchOpIn = some i ∧ exec i s = .next t := by
  unfold step at h
  rcases execute_cases s.fetchOpIn s with ⟨i, u, d, _, hx, e⟩ | ⟨_, e⟩ | ⟨_, _, e⟩
  · rw [e, Host.Outcome.next.injEq] at h; exact ⟨i, d, by rw [hx, h]⟩
  · rw [e] at h; cases h
  · rw [e] at h; cases h

end Sys2Proof.Machine
end

