-- ==== Sys2Proof/Tests/Slice0.lean ====
section
/-! SUPPORT. The model's own tests. Expected values come from the spec: 95_test_vectors.md unless a comment says
otherwise. Witnesses of the statements' hypotheses stand at the end. -/

namespace Sys2Proof.Tests

open Sys2Proof.Machine

/-! ### Helpers -/

/-- A state with the six words given, bytes loaded at `PC`, and further bytes of Memory. -/
def machine (af bc de hl sp pc : Word) (code : List Byte) (more : List (Word × Byte) := []) : State :=
  more.foldl (fun s c => s.writeByte c.1 c.2)
    (State.writeBytes { State.reset with af := af, bc := bc, de := de, hl := hl, sp := sp, pc := pc } pc code)

def nextOf : Host.Outcome State Fault Refusal → Option State
  | .next t => some t
  | .fault _ => none
  | .refused _ => none

def faultOf : Host.Outcome State Fault Refusal → Option Fault
  | .next _ => none
  | .fault f => some f
  | .refused _ => none

def refusalOf : Host.Outcome State Fault Refusal → Option Refusal
  | .next _ => none
  | .fault _ => none
  | .refused r => some r

def words (s : State) : List Word := [s.af, s.bc, s.de, s.hl, s.sp, s.pc]

/-- The six words after one step: `AF`, `BC`, `DE`, `HL`, `SP`, `PC`. -/
def stepped (s : State) : Option (List Word) := (nextOf (step s)).map words

/-- Bytes of Memory after one step. -/
def stored (s : State) (addrs : List Word) : Option (List Byte) := (nextOf (step s)).map fun t => addrs.map t.readByte

/-! ### Well-formedness: one ill-formed term for each check, refused -/

theorem test_wf_accepts : Code.wf ⟨.ldBCnn, .word 0x1337⟩ = true ∧ Code.wf ⟨.rlca, .none⟩ = true ∧
    Code.wf ⟨.ldBn, .byte 0x03⟩ = true ∧ Code.wf ⟨.jr, .byte 0xFC⟩ = true ∧
    Code.wf ⟨.extendedStub 0x37, .none⟩ = true := by decide
theorem test_wf_refuses_immediate_on_implied : Code.wf ⟨.rlca, .byte 0x00⟩ = false ∧ Code.wf ⟨.incBC, .word 0⟩ = false := by
  decide
theorem test_wf_refuses_immediate_on_stub :
    Code.wf ⟨.extendedStub 0x00, .byte 0x00⟩ = false ∧ Code.wf ⟨.extendedStub 0x00, .word 0⟩ = false := by decide
theorem test_wf_refuses_wrong_imm8 : Code.wf ⟨.ldBn, .none⟩ = false ∧ Code.wf ⟨.ldBn, .word 0x0003⟩ = false := by decide
theorem test_wf_refuses_wrong_disp8 : Code.wf ⟨.jr, .none⟩ = false ∧ Code.wf ⟨.jr, .word 0x0003⟩ = false := by decide
theorem test_wf_refuses_wrong_imm16 : Code.wf ⟨.ldBCnn, .none⟩ = false ∧ Code.wf ⟨.ldBCnn, .byte 0x05⟩ = false := by decide
theorem test_wf_refuses_unadmitted : Code.wfIn (fun op => op != 0x07) ⟨.rlca, .none⟩ = false := by decide
/-- The stub is no opcode byte: a narrower set does not refuse it (30_encoding.md R78, R80). -/
theorem test_wf_stub_always_admitted : Code.wfIn (fun _ => false) ⟨.extendedStub 0x07, .none⟩ = true := by decide

/-! ### Decoding: the bits of each instruction rule, operand fields as the tables of 30_encoding.md R75 give them -/

theorem test_decode_ld_pair_imm :
    decode 0b0000000000000001 = some .ldBCnn ∧ decode 0b0000000000010001 = some .ldDEnn ∧
    decode 0b0000000000100001 = some .ldHLnn ∧ decode 0b0000000000110001 = some .ldSPnn := by decide
theorem test_decode_ld_indirect_a :
    decode 0b0000000000000010 = some .ldIndBCA ∧ decode 0b0000000000001010 = some .ldAIndBC ∧
    decode 0b0000000000010010 = some .ldIndDEA ∧ decode 0b0000000000011010 = some .ldAIndDE ∧
    decode 0b0000000000101010 = some .ldAIndHLInc ∧ decode 0b0000000000111010 = some .ldAIndHLDec := by decide
theorem test_decode_incdec16 :
    decode 0b0000000000000011 = some .incBC ∧ decode 0b0000000000001011 = some .decBC ∧
    decode 0b0000000000010011 = some .incDE ∧ decode 0b0000000000011011 = some .decDE ∧
    decode 0b0000000000100011 = some .incHL ∧ decode 0b0000000000101011 = some .decHL ∧
    decode 0b0000000000110011 = some .incSP ∧ decode 0b0000000000111011 = some .decSP := by decide
theorem test_decode_incdec8 :
    decode 0b0000000000000100 = some .incB ∧ decode 0b0000000000000101 = some .decB ∧
    decode 0b0000000000001100 = some .incC ∧ decode 0b0000000000001101 = some .decC ∧
    decode 0b0000000000010100 = some .incD ∧ decode 0b0000000000010101 = some .decD ∧
    decode 0b0000000000011100 = some .incE ∧ decode 0b0000000000011101 = some .decE ∧
    decode 0b0000000000100100 = some .incH ∧ decode 0b0000000000100101 = some .decH ∧
    decode 0b0000000000101100 = some .incL ∧ decode 0b0000000000101101 = some .decL ∧
    decode 0b0000000000111100 = some .incA ∧ decode 0b0000000000111101 = some .decA := by decide
theorem test_decode_ld_r_imm8 :
    decode 0b0000000000000110 = some .ldBn ∧ decode 0b0000000000001110 = some .ldCn ∧
    decode 0b0000000000010110 = some .ldDn ∧ decode 0b0000000000011110 = some .ldEn ∧
    decode 0b0000000000100110 = some .ldHn ∧ decode 0b0000000000101110 = some .ldLn ∧
    decode 0b0000000000111110 = some .ldAn := by decide
theorem test_decode_rotate_a :
    decode 0b0000000000000111 = some .rlca ∧ decode 0b0000000000001111 = some .rrca ∧
    decode 0b0000000000010111 = some .rla ∧ decode 0b0000000000011111 = some .rra := by decide
theorem test_decode_ld_nn_sp :
    decode 0b0000000000001000 = some .ldIndNnSP := by decide
theorem test_decode_add_hl :
    decode 0b0000000000001001 = some .addHLBC ∧ decode 0b0000000000011001 = some .addHLDE ∧
    decode 0b0000000000101001 = some .addHLHL ∧ decode 0b0000000000111001 = some .addHLSP := by decide
theorem test_decode_jr :
    decode 0b0000000000011000 = some .jr ∧ decode 0b0000000000100000 = some .jrNZ ∧
    decode 0b0000000000101000 = some .jrZ ∧ decode 0b0000000000110000 = some .jrNC ∧
    decode 0b0000000000111000 = some .jrC := by decide
theorem test_decode_stub : decode 0b1100101100000000 = some (.extendedStub 0b00000000) ∧
    decode 0b1100101100110111 = some (.extendedStub 0b00110111) ∧
    decode 0b1100101111111111 = some (.extendedStub 0b11111111) := by decide
theorem test_decode_unknown_low : decode 0x0000 = none ∧ decode 0x0010 = none ∧ decode 0x0022 = none ∧ decode 0x0027 = none ∧
    decode 0x002F = none ∧ decode 0x0032 = none ∧ decode 0x0034 = none ∧ decode 0x0035 = none ∧ decode 0x0036 = none ∧
    decode 0x0037 = none ∧ decode 0x003F = none := by decide
theorem test_decode_unknown_high : decode 0x0040 = none ∧ decode 0x0076 = none ∧ decode 0x00CB = none ∧ decode 0x00FF = none ∧
    decode 0x0101 = none ∧ decode 0x1201 = none ∧ decode 0xFF01 = none := by decide
/-- 30_encoding.md R72 on `0x39`, and on `0x40`, whose `x` is not 0. -/
theorem test_fields : fieldX 0x39 = 0 ∧ fieldY 0x39 = 7 ∧ fieldZ 0x39 = 1 ∧ fieldP 0x39 = 3 ∧ fieldQ 0x39 = 1 ∧
    fieldX 0x40 = 1 ∧ fieldX 0xFF = 3 := by decide
theorem test_decodeBytes_word : decodeBytes [0x21, 0x34, 0x12, 0xEE] = .ok (⟨.ldHLnn, .word 0x1234⟩, [0xEE]) := by rfl
theorem test_decodeBytes_truncated : decodeBytes [0x21, 0x34] = .error .truncated := by rfl
theorem test_decodeBytes_cut_after_stub_byte : decodeBytes [0xCB] = .error .truncated := by rfl
theorem test_decodeBytes_unknown : decodeBytes [0x10, 0x00] = .error (.unknownOpcode 0x0010) := by rfl

/-! ### Views (2.1, S1) -/

theorem test_views : Word.high 0xABCD = 0xAB ∧ Word.low 0xABCD = 0xCD ∧ setHigh 0xABCD 0x00 = 0x00CD ∧
    setLow 0xABCD 0xFF = 0xABFF ∧ setHigh 0x0000 0xFF = 0xFF00 ∧ setLow (setHigh 0xFFFF 0x12) 0x34 = 0x1234 := by decide
theorem test_views_s1 : setLow 0xBEEF 0x37 = 0xBE37 ∧ setHigh 0xBE37 0x13 = 0x1337 ∧ setHigh 0xBEEF 0x13 = 0x13EF ∧
    setLow 0x13EF 0x37 = 0x1337 := by decide

/-! ### Instructions, one step each -/

theorem test_ldBCnn_S8 :
    stepped (machine 0x5AF0 0x0000 0x0000 0x0000 0x0000 0x0000 [0x01, 0x37, 0x13]) = some [0x5AF0, 0x1337, 0x0000, 0x0000, 0x0000, 0x0003] := by decide
theorem test_ldBCnn_wraps :
    stepped (machine 0x0000 0x0000 0x0000 0x0000 0x0000 0xFFFE [0x01, 0x34, 0x12]) = some [0x0000, 0x1234, 0x0000, 0x0000, 0x0000, 0x0001] := by decide
theorem test_ldDEnn :
    stepped (machine 0x5AF0 0x0000 0x0000 0x0000 0x0000 0x0100 [0x11, 0xFF, 0xFF]) = some [0x5AF0, 0x0000, 0xFFFF, 0x0000, 0x0000, 0x0103] := by decide
theorem test_ldHLnn :
    stepped (machine 0x5AF0 0x0000 0x0000 0x0000 0x0000 0x0100 [0x21, 0x34, 0x12]) = some [0x5AF0, 0x0000, 0x0000, 0x1234, 0x0000, 0x0103] := by decide
theorem test_ldSPnn :
    stepped (machine 0x5AF0 0x0000 0x0000 0x0000 0x0000 0x0100 [0x31, 0xFE, 0xFF]) = some [0x5AF0, 0x0000, 0x0000, 0x0000, 0xFFFE, 0x0103] := by decide
theorem test_ldIndBCA :
    stepped (machine 0x5A00 0xC000 0x0000 0x0000 0x0000 0x0010 [0x02]) = some [0x5A00, 0xC000, 0x0000, 0x0000, 0x0000, 0x0011] ∧
    stored (machine 0x5A00 0xC000 0x0000 0x0000 0x0000 0x0010 [0x02]) [0xC000] = some [0x5A] := by decide
theorem test_ldIndDEA :
    stepped (machine 0xABF0 0x0000 0xC010 0x0000 0x0000 0x0010 [0x12]) = some [0xABF0, 0x0000, 0xC010, 0x0000, 0x0000, 0x0011] ∧
    stored (machine 0xABF0 0x0000 0xC010 0x0000 0x0000 0x0010 [0x12]) [0xC010] = some [0xAB] := by decide
theorem test_ldAIndBC :
    stepped (machine 0x00F0 0xC000 0x0000 0x0000 0x0000 0x0000 [0x0A] [(0xC000, 0x42)]) = some [0x42F0, 0xC000, 0x0000, 0x0000, 0x0000, 0x0001] := by decide
theorem test_ldAIndDE :
    stepped (machine 0x0000 0x0000 0x1234 0x0000 0x0000 0x0000 [0x1A] [(0x1234, 0x99)]) = some [0x9900, 0x0000, 0x1234, 0x0000, 0x0000, 0x0001] := by decide
theorem test_ldAIndHLInc :
    stepped (machine 0x0000 0x0000 0x0000 0xFFFF 0x0000 0x0000 [0x2A] [(0xFFFF, 0x77)]) = some [0x7700, 0x0000, 0x0000, 0x0000, 0x0000, 0x0001] := by decide
theorem test_ldAIndHLInc_plain :
    stepped (machine 0x0000 0x0000 0x0000 0xC000 0x0000 0x0000 [0x2A] [(0xC000, 0xAB)]) = some [0xAB00, 0x0000, 0x0000, 0xC001, 0x0000, 0x0001] := by decide
theorem test_ldAIndHLDec :
    stepped (machine 0x0000 0x0000 0x0000 0x0000 0x0000 0x0010 [0x3A] [(0x0000, 0x66)]) = some [0x6600, 0x0000, 0x0000, 0xFFFF, 0x0000, 0x0011] := by decide
theorem test_ldAIndHLDec_plain :
    stepped (machine 0x0000 0x0000 0x0000 0xC001 0x0000 0x0000 [0x3A] [(0xC001, 0xCD)]) = some [0xCD00, 0x0000, 0x0000, 0xC000, 0x0000, 0x0001] := by decide
theorem test_incBC_wraps :
    stepped (machine 0x00F0 0xFFFF 0x0000 0x0000 0x0000 0x0000 [0x03]) = some [0x00F0, 0x0000, 0x0000, 0x0000, 0x0000, 0x0001] := by decide
theorem test_incBC :
    stepped (machine 0x00F0 0x00FF 0x0000 0x0000 0x0000 0x0000 [0x03]) = some [0x00F0, 0x0100, 0x0000, 0x0000, 0x0000, 0x0001] := by decide
theorem test_incDE_wraps :
    stepped (machine 0x00F0 0x0000 0xFFFF 0x0000 0x0000 0x0000 [0x13]) = some [0x00F0, 0x0000, 0x0000, 0x0000, 0x0000, 0x0001] := by decide
theorem test_incDE :
    stepped (machine 0x00F0 0x0000 0x00FF 0x0000 0x0000 0x0000 [0x13]) = some [0x00F0, 0x0000, 0x0100, 0x0000, 0x0000, 0x0001] := by decide
theorem test_incHL_wraps :
    stepped (machine 0x00F0 0x0000 0x0000 0xFFFF 0x0000 0x0000 [0x23]) = some [0x00F0, 0x0000, 0x0000, 0x0000, 0x0000, 0x0001] := by decide
theorem test_incHL :
    stepped (machine 0x00F0 0x0000 0x0000 0x00FF 0x0000 0x0000 [0x23]) = some [0x00F0, 0x0000, 0x0000, 0x0100, 0x0000, 0x0001] := by decide
theorem test_incSP_wraps :
    stepped (machine 0x00F0 0x0000 0x0000 0x0000 0xFFFF 0x0000 [0x33]) = some [0x00F0, 0x0000, 0x0000, 0x0000, 0x0000, 0x0001] := by decide
theorem test_incSP :
    stepped (machine 0x00F0 0x0000 0x0000 0x0000 0x00FF 0x0000 [0x33]) = some [0x00F0, 0x0000, 0x0000, 0x0000, 0x0100, 0x0001] := by decide
theorem test_decBC_wraps :
    stepped (machine 0x00F0 0x0000 0x0000 0x0000 0x0000 0x0000 [0x0B]) = some [0x00F0, 0xFFFF, 0x0000, 0x0000, 0x0000, 0x0001] := by decide
theorem test_decBC :
    stepped (machine 0x00F0 0x0100 0x0000 0x0000 0x0000 0x0000 [0x0B]) = some [0x00F0, 0x00FF, 0x0000, 0x0000, 0x0000, 0x0001] := by decide
theorem test_decDE_wraps :
    stepped (machine 0x00F0 0x0000 0x0000 0x0000 0x0000 0x0000 [0x1B]) = some [0x00F0, 0x0000, 0xFFFF, 0x0000, 0x0000, 0x0001] := by decide
theorem test_decDE :
    stepped (machine 0x00F0 0x0000 0x0100 0x0000 0x0000 0x0000 [0x1B]) = some [0x00F0, 0x0000, 0x00FF, 0x0000, 0x0000, 0x0001] := by decide
theorem test_decHL_wraps :
    stepped (machine 0x00F0 0x0000 0x0000 0x0000 0x0000 0x0000 [0x2B]) = some [0x00F0, 0x0000, 0x0000, 0xFFFF, 0x0000, 0x0001] := by decide
theorem test_decHL :
    stepped (machine 0x00F0 0x0000 0x0000 0x0100 0x0000 0x0000 [0x2B]) = some [0x00F0, 0x0000, 0x0000, 0x00FF, 0x0000, 0x0001] := by decide
theorem test_decSP_wraps :
    stepped (machine 0x00F0 0x0000 0x0000 0x0000 0x0000 0x0000 [0x3B]) = some [0x00F0, 0x0000, 0x0000, 0x0000, 0xFFFF, 0x0001] := by decide
theorem test_decSP :
    stepped (machine 0x00F0 0x0000 0x0000 0x0000 0x0100 0x0000 [0x3B]) = some [0x00F0, 0x0000, 0x0000, 0x0000, 0x00FF, 0x0001] := by decide
theorem test_incB_S3 :
    stepped (machine 0x0010 0xFF34 0x0000 0x0000 0x0000 0x0000 [0x04]) = some [0x00B0, 0x0034, 0x0000, 0x0000, 0x0000, 0x0001] := by decide
theorem test_incB_half_carry :
    stepped (machine 0xA5F0 0x7F5A 0x0000 0x0000 0x0000 0x0000 [0x04]) = some [0xA530, 0x805A, 0x0000, 0x0000, 0x0000, 0x0001] := by decide
theorem test_incC :
    stepped (machine 0x0000 0x120F 0x0000 0x0000 0x0000 0x0000 [0x0C]) = some [0x0020, 0x1210, 0x0000, 0x0000, 0x0000, 0x0001] := by decide
theorem test_incD :
    stepped (machine 0x00F0 0x0000 0x0077 0x0000 0x0000 0x0000 [0x14]) = some [0x0010, 0x0000, 0x0177, 0x0000, 0x0000, 0x0001] := by decide
theorem test_incE :
    stepped (machine 0x0000 0x0000 0xAA7F 0x0000 0x0000 0x0000 [0x1C]) = some [0x0020, 0x0000, 0xAA80, 0x0000, 0x0000, 0x0001] := by decide
theorem test_incH :
    stepped (machine 0x0040 0x0000 0x0000 0x4100 0x0000 0x0000 [0x24]) = some [0x0000, 0x0000, 0x0000, 0x4200, 0x0000, 0x0001] := by decide
theorem test_incL :
    stepped (machine 0x0000 0x0000 0x0000 0x12FF 0x0000 0x0000 [0x2C]) = some [0x00A0, 0x0000, 0x0000, 0x1200, 0x0000, 0x0001] := by decide
theorem test_incA :
    stepped (machine 0xFF10 0x0000 0x0000 0x0000 0x0000 0x0000 [0x3C]) = some [0x00B0, 0x0000, 0x0000, 0x0000, 0x0000, 0x0001] := by decide
theorem test_decB_S4 :
    stepped (machine 0x0010 0x0034 0x0000 0x0000 0x0000 0x0000 [0x05]) = some [0x0070, 0xFF34, 0x0000, 0x0000, 0x0000, 0x0001] := by decide
theorem test_decB_half_borrow :
    stepped (machine 0xA5E0 0x105A 0x0000 0x0000 0x0000 0x0000 [0x05]) = some [0xA560, 0x0F5A, 0x0000, 0x0000, 0x0000, 0x0001] := by decide
theorem test_decC :
    stepped (machine 0x0010 0x1201 0x0000 0x0000 0x0000 0x0000 [0x0D]) = some [0x00D0, 0x1200, 0x0000, 0x0000, 0x0000, 0x0001] := by decide
theorem test_decD :
    stepped (machine 0x0000 0x0000 0x1000 0x0000 0x0000 0x0000 [0x15]) = some [0x0060, 0x0000, 0x0F00, 0x0000, 0x0000, 0x0001] := by decide
theorem test_decE :
    stepped (machine 0x0000 0x0000 0x0080 0x0000 0x0000 0x0000 [0x1D]) = some [0x0060, 0x0000, 0x007F, 0x0000, 0x0000, 0x0001] := by decide
theorem test_decH :
    stepped (machine 0x0000 0x0000 0x0000 0x4200 0x0000 0x0000 [0x25]) = some [0x0040, 0x0000, 0x0000, 0x4100, 0x0000, 0x0001] := by decide
theorem test_decL :
    stepped (machine 0x0000 0x0000 0x0000 0x1200 0x0000 0x0000 [0x2D]) = some [0x0060, 0x0000, 0x0000, 0x12FF, 0x0000, 0x0001] := by decide
theorem test_decA :
    stepped (machine 0x0100 0x0000 0x0000 0x0000 0x0000 0x0000 [0x3D]) = some [0x00C0, 0x0000, 0x0000, 0x0000, 0x0000, 0x0001] := by decide
theorem test_ldBn :
    stepped (machine 0x0000 0x12EE 0x0000 0x0000 0x0000 0x0000 [0x06, 0x03]) = some [0x0000, 0x03EE, 0x0000, 0x0000, 0x0000, 0x0002] := by decide
theorem test_ldCn :
    stepped (machine 0x0000 0x12EE 0x0000 0x0000 0x0000 0x0000 [0x0E, 0x7F]) = some [0x0000, 0x127F, 0x0000, 0x0000, 0x0000, 0x0002] := by decide
theorem test_ldDn :
    stepped (machine 0x0000 0x0000 0x0000 0x0000 0x0000 0x0000 [0x16, 0xC0]) = some [0x0000, 0x0000, 0xC000, 0x0000, 0x0000, 0x0002] := by decide
theorem test_ldEn :
    stepped (machine 0x0000 0x0000 0xC000 0x0000 0x0000 0x0000 [0x1E, 0x10]) = some [0x0000, 0x0000, 0xC010, 0x0000, 0x0000, 0x0002] := by decide
theorem test_ldHn :
    stepped (machine 0x0000 0x0000 0x0000 0x00FF 0x0000 0x0000 [0x26, 0x8A]) = some [0x0000, 0x0000, 0x0000, 0x8AFF, 0x0000, 0x0002] := by decide
theorem test_ldLn :
    stepped (machine 0x0000 0x0000 0x0000 0x8AFF 0x0000 0x0000 [0x2E, 0x23]) = some [0x0000, 0x0000, 0x0000, 0x8A23, 0x0000, 0x0002] := by decide
theorem test_ldAn :
    stepped (machine 0x00F0 0x0000 0x0000 0x0000 0x0000 0x0000 [0x3E, 0x85]) = some [0x85F0, 0x0000, 0x0000, 0x0000, 0x0000, 0x0002] := by decide
theorem test_ldAn_zero_keeps_z :
    stepped (machine 0x7700 0x0000 0x0000 0x0000 0x0000 0x0000 [0x3E, 0x00]) = some [0x0000, 0x0000, 0x0000, 0x0000, 0x0000, 0x0002] := by decide
theorem test_rlca_S7 :
    stepped (machine 0x85E0 0x0000 0x0000 0x0000 0x0000 0x0000 [0x07]) = some [0x0B10, 0x0000, 0x0000, 0x0000, 0x0000, 0x0001] := by decide
theorem test_rlca_ignores_carry :
    stepped (machine 0x7EF0 0x0000 0x0000 0x0000 0x0000 0x0000 [0x07]) = some [0xFC00, 0x0000, 0x0000, 0x0000, 0x0000, 0x0001] := by decide
theorem test_rrca :
    stepped (machine 0x8500 0x0000 0x0000 0x0000 0x0000 0x0000 [0x0F]) = some [0xC210, 0x0000, 0x0000, 0x0000, 0x0000, 0x0001] := by decide
theorem test_rrca_ignores_carry :
    stepped (machine 0x7EF0 0x0000 0x0000 0x0000 0x0000 0x0000 [0x0F]) = some [0x3F00, 0x0000, 0x0000, 0x0000, 0x0000, 0x0001] := by decide
theorem test_rla_zero_result :
    stepped (machine 0x8000 0x0000 0x0000 0x0000 0x0000 0x0000 [0x17]) = some [0x0010, 0x0000, 0x0000, 0x0000, 0x0000, 0x0001] := by decide
theorem test_rla_carry_in :
    stepped (machine 0x85F0 0x0000 0x0000 0x0000 0x0000 0x0000 [0x17]) = some [0x0B10, 0x0000, 0x0000, 0x0000, 0x0000, 0x0001] := by decide
theorem test_rra_zero_result :
    stepped (machine 0x0100 0x0000 0x0000 0x0000 0x0000 0x0000 [0x1F]) = some [0x0010, 0x0000, 0x0000, 0x0000, 0x0000, 0x0001] := by decide
theorem test_rra_carry_in :
    stepped (machine 0x7EF0 0x0000 0x0000 0x0000 0x0000 0x0000 [0x1F]) = some [0xBF00, 0x0000, 0x0000, 0x0000, 0x0000, 0x0001] := by decide
theorem test_ldIndNnSP_wraps :
    stepped (machine 0x0000 0x0000 0x0000 0x0000 0xABCD 0x0200 [0x08, 0xFF, 0xFF]) = some [0x0000, 0x0000, 0x0000, 0x0000, 0xABCD, 0x0203] ∧
    stored (machine 0x0000 0x0000 0x0000 0x0000 0xABCD 0x0200 [0x08, 0xFF, 0xFF]) [0xFFFF, 0x0000] = some [0xCD, 0xAB] := by decide
theorem test_ldIndNnSP_over_itself :
    stepped (machine 0x0000 0x0000 0x0000 0x0000 0x1234 0x0300 [0x08, 0x01, 0x03]) = some [0x0000, 0x0000, 0x0000, 0x0000, 0x1234, 0x0303] ∧
    stored (machine 0x0000 0x0000 0x0000 0x0000 0x1234 0x0300 [0x08, 0x01, 0x03]) [0x0300, 0x0301, 0x0302] = some [0x08, 0x34, 0x12] := by decide
theorem test_addHLBC_S5 :
    stepped (machine 0x00D0 0x0605 0x0000 0x8A23 0x0000 0x0000 [0x09]) = some [0x00A0, 0x0605, 0x0000, 0x9028, 0x0000, 0x0001] := by decide
theorem test_addHLDE_bit11 :
    stepped (machine 0x0000 0x0000 0x0001 0x07FF 0x0000 0x0000 [0x19]) = some [0x0000, 0x0000, 0x0001, 0x0800, 0x0000, 0x0001] := by decide
theorem test_addHLDE_both :
    stepped (machine 0x0000 0x0000 0xF001 0x0FFF 0x0000 0x0000 [0x19]) = some [0x0030, 0x0000, 0xF001, 0x0000, 0x0000, 0x0001] := by decide
theorem test_addHLHL_S6 :
    stepped (machine 0x0000 0x0000 0x0000 0x8A23 0x0000 0x0000 [0x29]) = some [0x0030, 0x0000, 0x0000, 0x1446, 0x0000, 0x0001] := by decide
theorem test_addHLHL :
    stepped (machine 0x0080 0x0000 0x0000 0x8800 0x0000 0x0000 [0x29]) = some [0x00B0, 0x0000, 0x0000, 0x1000, 0x0000, 0x0001] := by decide
theorem test_addHLSP :
    stepped (machine 0x00C0 0x0000 0x0000 0x0F00 0x0100 0x0000 [0x39]) = some [0x00A0, 0x0000, 0x0000, 0x1000, 0x0100, 0x0001] := by decide
theorem test_jr_wraps_down :
    stepped (machine 0x0000 0x0000 0x0000 0x0000 0x0000 0x0010 [0x18, 0x80]) = some [0x0000, 0x0000, 0x0000, 0x0000, 0x0000, 0xFF92] := by decide
theorem test_jr_wraps_up :
    stepped (machine 0x0000 0x0000 0x0000 0x0000 0x0000 0xFFF0 [0x18, 0x7F]) = some [0x0000, 0x0000, 0x0000, 0x0000, 0x0000, 0x0071] := by decide
theorem test_jrNZ_taken :
    stepped (machine 0x0010 0x0000 0x0000 0x0000 0x0000 0x0100 [0x20, 0x10]) = some [0x0010, 0x0000, 0x0000, 0x0000, 0x0000, 0x0112] := by decide
theorem test_jrNZ_not :
    stepped (machine 0x0080 0x0000 0x0000 0x0000 0x0000 0x0100 [0x20, 0x10]) = some [0x0080, 0x0000, 0x0000, 0x0000, 0x0000, 0x0102] := by decide
theorem test_jrZ_taken :
    stepped (machine 0x0090 0x0000 0x0000 0x0000 0x0000 0x0100 [0x28, 0xF0]) = some [0x0090, 0x0000, 0x0000, 0x0000, 0x0000, 0x00F2] := by decide
theorem test_jrZ_not :
    stepped (machine 0x0000 0x0000 0x0000 0x0000 0x0000 0xFFF0 [0x28, 0x7F]) = some [0x0000, 0x0000, 0x0000, 0x0000, 0x0000, 0xFFF2] := by decide
theorem test_jrNC_taken :
    stepped (machine 0x0080 0x0000 0x0000 0x0000 0x0000 0x0100 [0x30, 0x10]) = some [0x0080, 0x0000, 0x0000, 0x0000, 0x0000, 0x0112] := by decide
theorem test_jrNC_not :
    stepped (machine 0x0010 0x0000 0x0000 0x0000 0x0000 0x0100 [0x30, 0x10]) = some [0x0010, 0x0000, 0x0000, 0x0000, 0x0000, 0x0102] := by decide
theorem test_jrC_taken :
    stepped (machine 0x0090 0x0000 0x0000 0x0000 0x0000 0x0010 [0x38, 0x80]) = some [0x0090, 0x0000, 0x0000, 0x0000, 0x0000, 0xFF92] := by decide
theorem test_jrC_not_wraps :
    stepped (machine 0x0000 0x0000 0x0000 0x0000 0x0000 0xFFFE [0x38, 0x00]) = some [0x0000, 0x0000, 0x0000, 0x0000, 0x0000, 0x0000] := by decide

/-! ### Unknown opcode, extended stub, `initialize`, the transaction (2.12, S11) -/

theorem test_unknown_S11 : transact 0x00FF (machine 0x12F0 0 0 0 0 0x1234 []) =
    ⟨machine 0x12F0 0 0 0 0 0x1234 [], .unknownOpcode 0x00FF⟩ := by decide
theorem test_unknown_diagnostic : (transact 0x1201 State.reset).outcome.diagnostic = .identifies 0x1201 := by decide
theorem test_step_unknown : faultOf (step (machine 0 0 0 0 0 8 [0x10])) = some (.unknownOpcode 0x0010) := by decide
theorem test_step_stub : refusalOf (step (machine 0 0 0 0 0 8 [0xCB, 0x07])) = some (.extendedStub 0xCB07) := by decide
theorem test_stub_changes_nothing : transact 0xCB07 (machine 0x12F0 1 2 3 4 5 []) =
    ⟨machine 0x12F0 1 2 3 4 5 [], .extendedStub 0xCB07⟩ := by decide
theorem test_initialise : words (machine 0x12F0 1 2 3 4 5 []).initialise = [0, 0, 0, 0, 0, 0] := by decide
/-- `execute(0x0004)` with `memory[PC] = 0x05` runs `INC B`. -/
theorem test_op_in_not_checked : (transact 0x0004 (machine 0 0x4100 0 0 0 0 [0x05])).state.bc = 0x4200 := by decide
theorem test_withFetchWord : stepped ((machine 0 0x0010 0 0 0 0xFFFF []).withFetchWord 16 0x0003) =
    some [0, 0x0011, 0, 0, 0, 0] := by decide
/-- A write over a listed byte replaces it (20_memory.md R51), and the list stays rising. -/
theorem test_memory_form : ((State.reset.writeByte 5 1).writeByte 3 2 |>.writeByte 5 7).mem = [(3, 2), (5, 7)] := by decide

/-! ### Witnesses: concrete states and operands that meet each statement's hypotheses -/

theorem witness_ByteReadAfterWrite : (0x0000 : Word) ≠ 0xFFFF := by decide
theorem witness_MemoryCanonicalFormKept : (machine 0 0 0 0 0 0xFFFF [0x21, 0x34, 0x12]).mem.wf := by decide
theorem witness_OpInClasses_stub : (0xCBFF : Word).extractLsb' 8 8 = 0xCB := by decide
theorem witness_OpInClasses_admitted : (0x003E : Word).extractLsb' 8 8 = 0x00 ∧ (0x003E : Word).extractLsb' 0 8 < (0x40 : Byte) ∧
    (0x003E : Word).extractLsb' 0 8 ∉ [(0x00 : Byte), 0x10, 0x22, 0x27, 0x2F, 0x32, 0x34, 0x35, 0x36, 0x37, 0x3F] := by decide
theorem witness_OpInClasses_high_byte : (0x0101 : Word).extractLsb' 8 8 ≠ 0xCB ∧ (0x0101 : Word).extractLsb' 8 8 ≠ 0x00 := by
  decide
theorem witness_OpInClasses_unknown : (0x0040 : Word).extractLsb' 8 8 = 0x00 ∧ (0x40 : Byte) ≤ (0x0040 : Word).extractLsb' 0 8 := by
  decide
theorem witness_OpInClasses_hole : (0x003F : Word).extractLsb' 8 8 = 0x00 ∧
    (0x003F : Word).extractLsb' 0 8 ∈ [(0x00 : Byte), 0x10, 0x22, 0x27, 0x2F, 0x32, 0x34, 0x35, 0x36, 0x37, 0x3F] := by decide
/-- One opcode for each branch of the length rule: 3, 3, 2, 2, 1. -/
theorem witness_LengthFromOpcode : decode 0x0031 = some .ldSPnn ∧ decode 0x0008 = some .ldIndNnSP ∧ decode 0x003E = some .ldAn ∧
    decode 0x0018 = some .jr ∧ decode 0x0039 = some .addHLSP ∧ (0x0039 : Word).extractLsb' 8 8 = 0x00 := by decide
theorem witness_EncodeThenDecode : Code.wf ⟨.ldIndNnSP, .word 0xFFFF⟩ = true ∧ Code.wf ⟨.extendedStub 0xFF, .none⟩ = true := by
  decide
theorem witness_DecodeThenEncode : decodeBytes [0x08, 0xFF, 0xFF] = .ok (⟨.ldIndNnSP, .word 0xFFFF⟩, []) := by rfl
theorem witness_TableWordsUnambiguous : decode 0x0007 = some .rlca := by decide
theorem witness_NarrowerAdmittedSet : (0x0007 : Word).extractLsb' 8 8 = 0x00 ∧
    (fun op : Byte => op == 0x01) ((0x0007 : Word).extractLsb' 0 8) = false ∧
    (∀ op : Byte, (fun op : Byte => op == 0x01) op = true → Config.admitted op = true) :=
  ⟨by decide, by decide, fun op h => by have : op = 0x01 := by simpa using h
                                        subst this; decide⟩
theorem witness_NarrowerAdmittedSet_kept : (0x0001 : Word).extractLsb' 8 8 = 0x00 ∧
    (fun op : Byte => op == 0x01) ((0x0001 : Word).extractLsb' 0 8) = true ∧
    (∀ op : Byte, (fun op : Byte => op == 0x01) op = true → Config.admitted op = true) :=
  ⟨by decide, by decide, witness_NarrowerAdmittedSet.2.2⟩
theorem witness_NarrowerAdmittedSet_outside : (0xCB01 : Word).extractLsb' 8 8 = 0xCB ∧ (0x0101 : Word).extractLsb' 8 8 ≠ 0x00 ∧
    (0x0101 : Word).extractLsb' 8 8 ≠ 0xCB := by decide
theorem witness_UnknownOpcode_high : (0x1201 : Word).extractLsb' 8 8 ≠ 0x00 ∧ (0x1201 : Word).extractLsb' 8 8 ≠ 0xCB := by decide
theorem witness_UnknownOpcode_low : (0x00CB : Word).extractLsb' 8 8 = 0x00 ∧ (0x40 : Byte) ≤ (0x00CB : Word).extractLsb' 0 8 := by
  decide
theorem witness_OpcodeByteNotRead : ∃ t, decode 0x000A = some .ldAIndBC ∧
    exec .ldAIndBC (machine 0 0xC000 0 0 0 0 [0x0A] [(0xC000, 0x42)]) = .next t ∧
    (machine 0 0xC000 0 0 0 0 [0x0A] [(0xC000, 0x42)]).bc ≠ (machine 0 0xC000 0 0 0 0 [0x0A] [(0xC000, 0x42)]).pc :=
  ⟨_, by decide, rfl, by decide⟩
theorem witness_OpcodeByteNotRead_loads :
    (∃ t, decode 0x001A = some .ldAIndDE ∧ exec .ldAIndDE (machine 0 0 0xC000 0 0 0 [0x1A]) = .next t ∧
      (machine 0 0 0xC000 0 0 0 [0x1A]).de ≠ (machine 0 0 0xC000 0 0 0 [0x1A]).pc) ∧
    (∃ t, decode 0x002A = some .ldAIndHLInc ∧ exec .ldAIndHLInc (machine 0 0 0 0xFFFF 0 0 [0x2A]) = .next t ∧
      (machine 0 0 0 0xFFFF 0 0 [0x2A]).hl ≠ (machine 0 0 0 0xFFFF 0 0 [0x2A]).pc) ∧
    (∃ t, decode 0x003A = some .ldAIndHLDec ∧ exec .ldAIndHLDec (machine 0 0 0 0xFFFF 0 0 [0x3A]) = .next t ∧
      (machine 0 0 0 0xFFFF 0 0 [0x3A]).hl ≠ (machine 0 0 0 0xFFFF 0 0 [0x3A]).pc) :=
  ⟨⟨_, by decide, rfl, by decide⟩, ⟨_, by decide, rfl, by decide⟩, ⟨_, by decide, rfl, by decide⟩⟩
/-- The immediate wraps round the top of Memory. -/
theorem witness_StepRuns : (let s := machine 0 0 0 0 0 0xFFFE [0x01, 0x34, 0x12]
    decodeBytes [s.readByte s.pc, s.readByte (s.pc + 1), s.readByte (s.pc + 2)]) = .ok (⟨.ldBCnn, .word 0x1234⟩, []) := by rfl
theorem witness_StepRuns_byte : (let s := machine 0 0 0 0 0 0 [0x18, 0x80, 0x00]
    decodeBytes [s.readByte s.pc, s.readByte (s.pc + 1), s.readByte (s.pc + 2)]) = .ok (⟨.jr, .byte 0x80⟩, [0x00]) := by rfl
theorem witness_ReferenceFetch : (machine 0 0 0 0 0 0 [0xCA]).readByte 0 ≠ 0xCB ∧
    (machine 0 0 0 0 0 0xFFFF [0xCB, 0x07]).readByte 0xFFFF = 0xCB := by decide
theorem witness_ProgramCounterAdvance : (∃ t, exec .ldSPnn (machine 0 0 0 0 0 0xFFFD []) = .next t) ∧
    Instr.ldSPnn ∉ jumpInstrs ∧ (∃ t, exec .jrC (machine 0x0010 0 0 0 0 0 [0x38, 0x80]) = .next t) ∧
    Instr.jrC ∈ jumpInstrs := ⟨⟨_, rfl⟩, by decide, ⟨_, rfl⟩, by decide⟩
theorem witness_EndOfRun : decode (machine 0 0 0 0 0 8 [0x10]).fetchOpIn = none ∧ EndsAt (machine 0 0 0 0 0 8 [0x10]) 0x0010 :=
  ⟨by decide, rfl⟩
theorem witness_EndOfRun_refused : (machine 0 0 0 0 0 0xFFFF [0xCB, 0x07]).fetchOpIn.extractLsb' 8 8 = 0xCB ∧
    step (machine 0 0 0 0 0 0xFFFF [0xCB, 0x07]) = .refused (.extendedStub 0xCB07) := ⟨by decide, rfl⟩
theorem witness_EndOfRun_goes_on : decode (machine 0 0 0 0 0 8 [0x3C]).fetchOpIn ≠ none ∧
    (machine 0 0 0 0 0 8 [0x3C]).fetchOpIn.extractLsb' 8 8 ≠ 0xCB := by decide
theorem witness_RefusalOnlyAtPrefix :
    core.run 2 (machine 0 0 0 0 0 0 [0x07, 0xCB, 0xFF]) = Host.Outcome.refused (.extendedStub 0xCBFF) := by rfl
theorem witness_StoreSeen_BC : (∃ t, exec .ldIndBCA (machine 0x3C00 1 0 0 0 0 []) = .next t) ∧
    (machine 0x3C00 1 0 0 0 0 []).bc = (machine 0x3C00 1 0 0 0 0 []).pc + 1 ∧
    (machine 0x3C00 1 0 0 0 0 []).af.extractLsb' 8 8 ≠ (0xCB : Byte) := ⟨⟨_, rfl⟩, by decide, by decide⟩
theorem witness_StoreSeen_DE : (∃ t, exec .ldIndDEA (machine 0x3C00 0 0 0 0 0xFFFF []) = .next t) ∧
    (machine 0x3C00 0 0 0 0 0xFFFF []).de = (machine 0x3C00 0 0 0 0 0xFFFF []).pc + 1 ∧
    (machine 0x3C00 0 0 0 0 0xFFFF []).af.extractLsb' 8 8 ≠ (0xCB : Byte) := ⟨⟨_, rfl⟩, by decide, by decide⟩
theorem witness_StoreSeen_SP : (∃ t, exec .ldIndNnSP (machine 0 0 0 0 0x3C3C 5 [0x08, 0x08, 0x00]) = .next t) ∧
    (machine 0 0 0 0 0x3C3C 5 [0x08, 0x08, 0x00]).imm16 = (machine 0 0 0 0 0x3C3C 5 [0x08, 0x08, 0x00]).pc + 3 ∧
    (machine 0 0 0 0 0x3C3C 5 [0x08, 0x08, 0x00]).sp.extractLsb' 0 8 ≠ (0xCB : Byte) := ⟨⟨_, rfl⟩, by decide, by decide⟩
theorem witness_JumpOnCondition : (0x0000 : Word).getLsbD 7 = false ∧ (0x0080 : Word).getLsbD 7 = true ∧
    (0x0000 : Word).getLsbD 4 = false ∧ (0x0010 : Word).getLsbD 4 = true := by decide
theorem witness_AdmittedInstructionsComplete : ∀ low, Instr.ldAn ≠ .extendedStub low := by intro low h; cases h
/-- One instruction for each clause of `FlagDispositions`. -/
theorem witness_FlagDispositions :
    ((∃ t, exec .incA (machine 0xFF10 0 0 0 0 0 []) = .next t) ∧ (Instr.incA, Reg16.af, Half.high) ∈ incTarget) ∧
    ((∃ t, exec .decL (machine 0 0 0 0x1200 0 0 []) = .next t) ∧ (Instr.decL, Reg16.hl, Half.low) ∈ decTarget) ∧
    ((∃ t, exec .addHLHL (machine 0 0 0 0x8A23 0 0 []) = .next t) ∧ (Instr.addHLHL, Reg16.hl) ∈ addSource) ∧
    ((∃ t, exec .rla (machine 0x8000 0 0 0 0 0 []) = .next t) ∧ Instr.rla ∈ [Instr.rlca, .rla]) ∧
    ((∃ t, exec .rra (machine 0x0100 0 0 0 0 0 []) = .next t) ∧ Instr.rra ∈ [Instr.rrca, .rra]) ∧
    ((∃ t, exec .incBC (machine 0x00F0 0xFFFF 0 0 0 0 []) = .next t) ∧ Instr.incBC ∉ writersOf .af .low) :=
  ⟨⟨⟨_, rfl⟩, by decide⟩, ⟨⟨_, rfl⟩, by decide⟩, ⟨⟨_, rfl⟩, by decide⟩, ⟨⟨_, rfl⟩, by decide⟩, ⟨⟨_, rfl⟩, by decide⟩,
    ⟨⟨_, rfl⟩, by decide⟩⟩
/-- Two states that differ in `Z`, `N` and `Hf` and agree in `Cy`, for `RLA`. -/
theorem witness_FlagsRead :
    (machine 0x8510 0 0 0 0 0 []).mem = (machine 0x85F0 0 0 0 0 0 []).mem ∧
    SameHalvesBut [(.af, .low)] (machine 0x85F0 0 0 0 0 0 []) (machine 0x8510 0 0 0 0 0 []) ∧
    (∀ f ∈ flagsRead .rla, (machine 0x8510 0 0 0 0 0 []).flag f = (machine 0x85F0 0 0 0 0 0 []).flag f) ∧
    (∃ t, exec .rla (machine 0x85F0 0 0 0 0 0 []) = .next t) ∧ (∃ t, exec .rla (machine 0x8510 0 0 0 0 0 []) = .next t) :=
  ⟨by decide, by intro w h _ n; cases w <;> cases h <;> first | decide | exact absurd (by decide) n, by decide, ⟨_, rfl⟩, ⟨_, rfl⟩⟩
theorem witness_RegisterWriters : (∃ t, exec .addHLSP (machine 0 0 0 0x0F00 0x0100 0 []) = .next t) ∧
    Reg16.sp ≠ .pc ∧ Instr.addHLSP ∉ writersOf .sp .high := ⟨⟨_, rfl⟩, by decide, by decide⟩
theorem witness_MemoryWriters : (∃ t, exec .ldIndNnSP (machine 0 0 0 0 0xABCD 0x0200 [0x08, 0xFF, 0xFF]) = .next t) ∧
    (0x0001 : Word) ∉ storedAddrs .ldIndNnSP (machine 0 0 0 0 0xABCD 0x0200 [0x08, 0xFF, 0xFF]) := ⟨⟨_, rfl⟩, by decide⟩
theorem witness_StepKeepsInvariant : (machine 0x12F0 0 0 0 0 0xFFFF [0x3C]).Inv ∧
    (∃ t, step (machine 0x12F0 0 0 0 0 0xFFFF [0x3C]) = .next t) := ⟨by decide, ⟨_, rfl⟩⟩
theorem witness_HostKeepsInvariant : State.reset.Inv ∧
    HostReaches State.reset (HostMove.act (HostMove.act State.reset (.pokeReg .af 0xFFF0)) (.callExecute 0x003C)) :=
  ⟨by decide, .move _ (.move _ .start (by decide)) (by decide)⟩

end Sys2Proof.Tests
end

section
/-! PROOF. What a set of admitted opcodes does to `execute` (R9, R78, D3; log entry 2): the decoder's classes under a set,
the execution each of them gives, and the obligation put together from them. -/

namespace Sys2Proof.Machine

/-! ### The decoder under a set -/

theorem decodeIn_of_not_admitted {admitted : Byte → Bool} {w : Word} (z : w.high = 0) (out : admitted w.low = false) :
    decodeIn admitted w = none := by
  simp [decodeIn_plain admitted z, out]

/-- An opcode byte that both the set and the default admit decodes as under the default. -/
theorem decodeIn_of_admitted {admitted : Byte → Bool} {w : Word} (z : w.high = 0) (adm : admitted w.low = true)
    (base : Config.admitted w.low = true) : decodeIn admitted w = decode w := by
  unfold decode
  rw [decodeIn_plain admitted z, decodeIn_plain Config.admitted z, adm, base]

/-! ### Execution under a set -/

/-- `executeIn` depends on the set only through what `op_in` decodes to. -/
theorem executeIn_of_decodeIn_eq {admitted : Byte → Bool} {w : Word} (h : decodeIn admitted w = decode w) (s : State) :
    executeIn admitted w s = execute w s := by
  have h' : decodeIn admitted w = decodeIn Config.admitted w := h
  unfold execute executeIn
  rw [h']

theorem executeIn_of_unknown {admitted : Byte → Bool} {w : Word} (h : decodeIn admitted w = none) (s : State) :
    executeIn admitted w s = .fault (.unknownOpcode w) := by
  simp [executeIn, h, raiseUnknownOpcode]

/-- No set gives a meaning to an `op_in` outside the plain space, nor takes one from it (R71, R79, R80). -/
theorem executeIn_outside (admitted : Byte → Bool) {w : Word} (z : w.high ≠ 0) (s : State) :
    executeIn admitted w s = execute w s :=
  executeIn_of_decodeIn_eq (decodeIn_outside admitted z) s

/-- Settles O19, by the space `op_in` lies in and, in the plain space, by whether the set admits its opcode byte. -/
theorem narrowerAdmittedSet : Obligations.NarrowerAdmittedSet := by
  intro admitted w s
  rw [← high_eq, ← low_eq]
  refine ⟨?leftOut, ?kept, ?stub, ?otherHigh, ?narrower⟩
  case leftOut =>
    rintro ⟨z, out⟩
    exact executeIn_of_unknown (decodeIn_of_not_admitted z out) s
  case kept =>
    rintro ⟨z, adm⟩ sub
    exact executeIn_of_decodeIn_eq (decodeIn_of_admitted z adm (sub _ adm)) s
  case stub =>
    intro c
    have z : w.high ≠ 0 := by rw [c]; decide
    exact executeIn_outside admitted z s
  case otherHigh =>
    intro z c
    rw [executeIn_outside admitted z s, execute_of_unknown (decode_other c z)]
  case narrower =>
    intro sub
    rcases decodeIn_eq_or_none sub w with same | unknown
    · exact .inl (executeIn_of_decodeIn_eq same s)
    · exact .inr (executeIn_of_unknown unknown s)

end Sys2Proof.Machine
end

section
/-! PROOF. The 8-bit views (R21 to R24, R34), the flag operations (R27, R28) and the state after reset (R39). -/

namespace Sys2Proof.Machine

/-! ### Views -/

/-- Settles O4: the half reads and writes as fields of the word, each law a read of an appended word. -/
theorem halfViewLaws : Obligations.HalfViewLaws := by
  intro w hi lo v
  simp only [halfOf_high, halfOf_low, setHigh_eq, setLow_eq, extract_high_append, extract_low_append, append_extract,
    and_self]

/-- Settles O5: each register is the half that `reg8Word` and `reg8Half` name, its write the half write of that word. -/
theorem eightBitRegisterTable : Obligations.EightBitRegisterTable := by
  intro s v
  refine ⟨half_high s .bc, half_low s .bc, half_high s .de, half_low s .de, half_high s .hl, half_low s .hl,
    half_high s .af, ?_⟩
  exact ⟨congrArg (s.setReg .bc) (setHigh_eq s.bc v), congrArg (s.setReg .bc) (setLow_eq s.bc v),
    congrArg (s.setReg .de) (setHigh_eq s.de v), congrArg (s.setReg .de) (setLow_eq s.de v),
    congrArg (s.setReg .hl) (setHigh_eq s.hl v), congrArg (s.setReg .hl) (setLow_eq s.hl v),
    congrArg (s.setReg .af) (setHigh_eq s.af v)⟩

/-! ### Flag operations: `set` and `clear` are the dispositions of those names -/

theorem flagBit_injective {f g : Flag} (h : flagBit g = flagBit f) : g = f := by
  cases f <;> cases g <;> first | rfl | cases h

theorem four_le_flagBit (f : Flag) : 4 ≤ flagBit f := by cases f <;> decide

theorem flagBit_lt_eight (f : Flag) : flagBit f < 8 := by cases f <;> decide

theorem flagIsSet_apply_same (d : Disposition) (f : Flag) (af : Word) :
    flagIsSet (d.apply f af) f = d.value (flagIsSet af f) := by
  rw [flagIsSet_eq, flagIsSet_eq, getLsbD_apply, if_pos rfl]

theorem flagIsSet_apply_ne (d : Disposition) {f g : Flag} (af : Word) (ne : g ≠ f) :
    flagIsSet (d.apply f af) g = flagIsSet af g := by
  rw [flagIsSet_eq, flagIsSet_eq, getLsbD_apply, if_neg (fun h => ne (flagBit_injective h))]

theorem halfOf_apply_high (d : Disposition) (f : Flag) (af : Word) :
    halfOf (d.apply f af) .high = halfOf af .high := by
  rw [halfOf_high, halfOf_high]
  apply BitVec.eq_of_getLsbD_eq; intro i hi
  have above : 8 + i ≠ flagBit f := by have := flagBit_lt_eight f; omega
  simp only [BitVec.getLsbD_extractLsb', getLsbD_apply, if_neg above]

theorem lowNibble_apply (d : Disposition) (f : Flag) (af : Word) : d.apply f af &&& 0x000F = af &&& 0x000F := by
  rw [lowNibble_eq_iff]; intro i hi
  have below : i ≠ flagBit f := by have := four_le_flagBit f; omega
  rw [getLsbD_apply, if_neg below]

/-- Settles O6: `set` and `clear` as dispositions, which change the bit of their own flag and no other. -/
theorem flagOperations : Obligations.FlagOperations := by
  refine ⟨⟨rfl, rfl, rfl, rfl⟩, fun af f => ⟨rfl, rfl, bne_iff_ne, ?_⟩⟩
  exact ⟨flagIsSet_apply_same .set f af, flagIsSet_apply_same .clear f af,
    fun _ ne => ⟨flagIsSet_apply_ne .set af ne, flagIsSet_apply_ne .clear af ne⟩,
    halfOf_apply_high .set f af, halfOf_apply_high .clear f af, lowNibble_apply .set f af, lowNibble_apply .clear f af⟩

/-- Settles O7, by the bit of `AF` each flag's mask selects. -/
theorem flagBits : Obligations.FlagBits :=
  fun s => ⟨flag_eq s .z, flag_eq s .n, flag_eq s .h, flag_eq s .c⟩

/-! ### Reset -/

/-- Settles O1: the words by definition, hence their halves and the flags. -/
theorem resetState : Obligations.ResetState := by
  refine ⟨rfl, rfl, rfl, rfl, rfl, rfl, fun w h => ?_, fun f => ?_⟩
  · cases w <;> cases h <;> rfl
  · cases f <;> rfl

/-- Settles O50: no byte is listed and `AF` is zero. -/
theorem resetMeetsInvariant : Obligations.ResetMeetsInvariant :=
  ⟨⟨.nil, fun _ h => absurd h List.not_mem_nil⟩, rfl⟩

end Sys2Proof.Machine
end

section
/-! PROOF. What a completed instruction leaves unchanged: the halves it is not listed for (R25), Memory's canonical form
and bits 3 to 0 of `AF` (R29); hence the invariant, along steps and along the host's moves. -/

namespace Sys2Proof.Machine

/-! ### Halves that an instruction is not listed as a writer of -/

/-- From `s` to `t`, only halves that the table of R25 lists the instruction for have changed. -/
def KeepsUnlisted (i : Instr) (s t : State) : Prop :=
  ∀ w h, w ≠ .pc → i ∉ writersOf w h → t.half w h = s.half w h

theorem KeepsUnlisted.trans {i : Instr} {s t u : State} (st : KeepsUnlisted i s t) (tu : KeepsUnlisted i t u) :
    KeepsUnlisted i s u := fun w h pc unlisted => (tu w h pc unlisted).trans (st w h pc unlisted)

theorem KeepsUnlisted.advancePC {i : Instr} {s t : State} (st : KeepsUnlisted i s t) (k : Format) :
    KeepsUnlisted i s (t.advancePC k) :=
  st.trans fun _ h pc _ => half_congr (reg_setReg_ne t _ pc) h

theorem KeepsUnlisted.declareFlags {i : Instr} {s t : State} (st : KeepsUnlisted i s t) (listed : i ∈ writersOf .af .low)
    (d : FlagDecl) : KeepsUnlisted i s (t.declareFlags d) := by
  refine st.trans fun w h _ unlisted => half_declareFlags d ?_
  rintro ⟨⟩; exact unlisted listed

theorem keepsUnlisted_setReg {i : Instr} {r : Reg16} (listed : ∀ h, i ∈ writersOf r h) (s : State) (v : Word) :
    KeepsUnlisted i s (s.setReg r v) := by
  intro w h _ unlisted
  have ne : w ≠ r := by rintro rfl; exact unlisted (listed h)
  exact half_congr (reg_setReg_ne s v ne) h

theorem keepsUnlisted_setHalf {i : Instr} {r : Reg16} {g : Half} (listed : i ∈ writersOf r g) (s : State) (v : Byte) :
    KeepsUnlisted i s (s.setHalf r g v) := by
  intro w h _ unlisted
  rw [half_setHalf, if_neg]
  rintro ⟨rfl, rfl⟩; exact unlisted listed

theorem keepsUnlisted_writeByte (i : Instr) (s : State) (a : Word) (v : Byte) : KeepsUnlisted i s (s.writeByte a v) :=
  fun w h _ _ => half_congr (writeByte_reg s a v w) h

theorem keepsUnlisted_jumpRelative (i : Instr) (c : Option Cond) (s : State) : KeepsUnlisted i s (jumpRelative c s) :=
  fun _ h pc _ => half_congr (reg_setReg_ne s _ pc) h

/-- `LD A,(..)` writes `A`, and `HL` where it counts it. -/
theorem keepsUnlisted_loadAccIndirect (ind : Indirect) (s : State) :
    KeepsUnlisted (ldAccInd ind) s (loadAccIndirect ind s) := by
  have acc : KeepsUnlisted (ldAccInd ind) s (s.setA (s.readByte (s.reg (indirectReg ind)))) :=
    keepsUnlisted_setHalf (by cases ind <;> decide) s _
  refine acc.trans ?_
  cases ind
  case bc | de => exact fun _ _ _ _ => rfl
  case hlInc | hlDec => exact keepsUnlisted_setReg (r := .hl) (by intro h; cases h <;> decide) _ _

/-- Every completed instruction keeps the halves it is not listed for. -/
theorem Effect.keepsUnlisted {s t : State} {i : Instr} (e : Effect s i t) : KeepsUnlisted i s t := by
  cases e with
  | ldPairImm p | incPair p | decPair p =>
    exact (keepsUnlisted_setReg (r := pairReg p) (by intro h; cases p <;> cases h <;> decide) s _).advancePC _
  | stBC | stDE => exact (keepsUnlisted_writeByte _ s _ _).advancePC _
  | stSP => exact ((keepsUnlisted_writeByte _ s _ _).trans (keepsUnlisted_writeByte _ _ _ _)).advancePC _
  | ldAccInd ind => exact (keepsUnlisted_loadAccIndirect ind s).advancePC _
  | ldRegImm r => exact (keepsUnlisted_setHalf (r := reg8Word r) (g := reg8Half r) (by cases r <;> decide) s _).advancePC _
  | incReg r | decReg r =>
    exact ((keepsUnlisted_setHalf (r := reg8Word r) (g := reg8Half r) (by cases r <;> decide) s _).declareFlags
      (by cases r <;> decide) _).advancePC _
  | rotateLeft c | rotateRight c =>
    exact ((keepsUnlisted_setHalf (r := .af) (g := .high) (by cases c <;> decide) s _).declareFlags
      (by cases c <;> decide) _).advancePC _
  | addHL p =>
    exact ((keepsUnlisted_setReg (r := .hl) (by intro h; cases p <;> cases h <;> decide) s _).declareFlags
      (by cases p <;> decide) _).advancePC _
  | jr | jrNZ | jrZ | jrNC | jrC => exact keepsUnlisted_jumpRelative _ _ s

/-- Settles O48, by the family of the instruction. -/
theorem registerWriters : Obligations.RegisterWriters := fun _ _ _ h => (exec_cases h).keepsUnlisted

/-! ### Bits 3 to 0 of `AF` -/

/-- An instruction that is no writer of `F` keeps its low bits with it; the others declare flags, which keeps them too. -/
theorem Effect.sameLowNibble {s t : State} {i : Instr} (e : Effect s i t) : SameLowNibble s t := by
  by_cases writer : i ∈ writersOf .af .low
  · cases e with
    | incReg r => obtain ⟨_, _, _, _, _, _, low, _⟩ := incReg8_spec r s; exact low
    | decReg r => obtain ⟨_, _, _, _, _, _, low, _⟩ := decReg8_spec r s; exact low
    | rotateLeft c => obtain ⟨_, _, _, _, _, _, low, _⟩ := rotateLeftCarry_spec c s; exact low
    | rotateRight c => obtain ⟨_, _, _, _, _, _, low, _⟩ := rotateRightCarry_spec c s; exact low
    | addHL p => obtain ⟨_, _, _, _, _, _, low, _⟩ := addPairs_spec p s; exact low
    | ldPairImm x | ldAccInd x | incPair x | decPair x | ldRegImm x => exact absurd writer (by cases x <;> decide)
    | stBC | stDE | stSP | jr | jrNZ | jrZ | jrNC | jrC => exact absurd writer (by decide)
  · exact sameLowNibble_of_half (e.keepsUnlisted .af .low (by decide) writer)

/-! ### Memory -/

/-- An instruction leaves Memory as it is, stores one byte, or stores one word. -/
theorem Effect.mem_cases {s t : State} {i : Instr} (e : Effect s i t) :
    t.mem = s.mem ∨ (∃ a v, t.mem = (s.writeByte a v).mem) ∨ (∃ a v, t.mem = (s.writeWord a v).mem) := by
  cases e with
  | stBC => exact .inr (.inl ⟨s.bc, s.a, rfl⟩)
  | stDE => exact .inr (.inl ⟨s.de, s.a, rfl⟩)
  | stSP => exact .inr (.inr ⟨s.imm16, s.sp, rfl⟩)
  | ldPairImm p | incPair p | decPair p => exact .inl ((advancePC_mem ..).trans (setReg_mem ..))
  | ldAccInd ind => exact .inl ((advancePC_mem ..).trans ((setReg_mem ..).trans (setHalf_mem ..)))
  | incReg r | decReg r | ldRegImm r => exact .inl (setReg8_mem ..)
  | rotateLeft c | rotateRight c => exact .inl (setHalf_mem ..)
  | addHL p => exact .inl rfl
  | jr | jrNZ | jrZ | jrNC | jrC => exact .inl rfl

/-- Every completed instruction keeps Memory canonical. -/
theorem Effect.mem_wf {s t : State} {i : Instr} (e : Effect s i t) (wf : s.mem.wf) : t.mem.wf := by
  rcases e.mem_cases with same | ⟨a, v, stored⟩ | ⟨a, v, stored⟩
  · exact same ▸ wf
  · exact stored ▸ writeByte_mem_wf a v wf
  · exact stored ▸ writeWord_mem_wf a v wf

/-! ### The invariant -/

/-- Every completed instruction keeps the invariant. -/
theorem inv_of_exec {s t : State} {i : Instr} (inv : s.Inv) (h : exec i s = .next t) : t.Inv := by
  have e := exec_cases h
  obtain ⟨wf, low⟩ := inv
  exact ⟨e.mem_wf wf, e.sameLowNibble.trans low⟩

/-- Settles O51: a step that answers a next state ran an instruction that completed. -/
theorem stepKeepsInvariant : Obligations.StepKeepsInvariant := by
  intro s t inv h
  obtain ⟨i, _, ran⟩ := step_next h
  exact inv_of_exec inv ran

/-- Every move that keeps the host's duty keeps the invariant (R7, D15). -/
theorem inv_of_legal_move {s : State} {m : HostMove} (inv : s.Inv) (ok : m.legal = true) : (m.act s).Inv := by
  obtain ⟨wf, low⟩ := inv
  cases m with
  | callInitialize => exact ⟨wf, BitVec.zero_and⟩
  | pokeByte a v => exact ⟨writeByte_mem_wf a v wf, low⟩
  | pokeReg r v =>
    refine ⟨(setReg_mem s r v).symm ▸ wf, ?_⟩
    cases r
    case af => exact beq_iff_eq.mp ok
    all_goals exact low
  | callExecute opIn =>
    show (transact opIn s).state.Inv
    rcases transact_state opIn s with same | ⟨i, ran⟩
    · rw [same]; exact ⟨wf, low⟩
    · exact inv_of_exec ⟨wf, low⟩ ran

/-- Settles O52, by induction on the moves. -/
theorem hostKeepsInvariant : Obligations.HostKeepsInvariant := by
  intro s t inv reached
  induction reached with
  | start => exact inv
  | move m _ ok ih => exact inv_of_legal_move ih ok

end Sys2Proof.Machine
end

section
/-! PROOF. The value of each flag after each instruction (R30, R31), read off the spec of the instruction's handler. -/

namespace Sys2Proof.Machine

/-! ### An effect is what `exec` answers -/

/-- The converse of `exec_cases`. -/
theorem Effect.exec_eq {s t : State} {i : Instr} (e : Effect s i t) : exec i s = .next t := by
  cases e with
  | ldPairImm x | ldAccInd x | incPair x | decPair x | incReg x | decReg x | ldRegImm x | addHL x => cases x <;> rfl
  | rotateLeft c | rotateRight c => cases c <;> rfl
  | stBC | stDE | stSP | jr | jrNZ | jrZ | jrNC | jrC => rfl

/-- An instruction has one effect from a state. -/
theorem Effect.unique {s t u : State} {i : Instr} (e : Effect s i u) (h : exec i s = .next t) : t = u :=
  Host.Outcome.next.inj (h.symm.trans e.exec_eq)

/-! ### The instructions of each family -/

theorem of_mem_incTarget {i : Instr} {w : Reg16} {h : Half} (m : (i, w, h) ∈ incTarget) :
    ∃ r, i = incReg r ∧ w = reg8Word r ∧ h = reg8Half r := by
  have named : ∀ x ∈ incTarget, ∃ r ∈ [Reg8.b, .c, .d, .e, .h, .l, .a], x = (incReg r, reg8Word r, reg8Half r) := by
    decide
  obtain ⟨r, _, eq⟩ := named _ m
  exact ⟨r, by simpa using eq⟩

theorem of_mem_decTarget {i : Instr} {w : Reg16} {h : Half} (m : (i, w, h) ∈ decTarget) :
    ∃ r, i = decReg r ∧ w = reg8Word r ∧ h = reg8Half r := by
  have named : ∀ x ∈ decTarget, ∃ r ∈ [Reg8.b, .c, .d, .e, .h, .l, .a], x = (decReg r, reg8Word r, reg8Half r) := by
    decide
  obtain ⟨r, _, eq⟩ := named _ m
  exact ⟨r, by simpa using eq⟩

theorem of_mem_addSource {i : Instr} {w : Reg16} (m : (i, w) ∈ addSource) : ∃ p, i = addHL p ∧ w = pairReg p := by
  have named : ∀ x ∈ addSource, ∃ p ∈ [Pair.bc, .de, .hl, .sp], x = (addHL p, pairReg p) := by decide
  obtain ⟨p, _, eq⟩ := named _ m
  exact ⟨p, by simpa using eq⟩

theorem of_mem_leftRotates {i : Instr} (m : i ∈ [Instr.rlca, .rla]) : ∃ c : Bool, i = if c then .rla else .rlca := by
  rcases List.mem_pair.mp m with rfl | rfl
  · exact ⟨false, rfl⟩
  · exact ⟨true, rfl⟩

theorem of_mem_rightRotates {i : Instr} (m : i ∈ [Instr.rrca, .rra]) : ∃ c : Bool, i = if c then .rra else .rrca := by
  rcases List.mem_pair.mp m with rfl | rfl
  · exact ⟨false, rfl⟩
  · exact ⟨true, rfl⟩

/-! ### The conditions as arithmetic -/

theorem add_one_eq_zero (v : Byte) : (v + 1 == 0) = decide (v = 0xFF) := by
  rw [Bool.eq_iff_iff, beq_iff_eq, decide_eq_true_iff]; bv_omega

theorem sub_one_eq_zero (v : Byte) : (v - 1 == 0) = decide (v = 0x01) := by
  rw [Bool.eq_iff_iff, beq_iff_eq, decide_eq_true_iff]; bv_omega

theorem toNat_lowNibble (v : Byte) : (v &&& 0x0F).toNat = v.toNat % 16 := Nat.and_two_pow_sub_one_eq_mod v.toNat 4

theorem toNat_low12 (w : Word) : (w &&& 0x0FFF).toNat = w.toNat % 4096 := Nat.and_two_pow_sub_one_eq_mod w.toNat 12

theorem incHalfCarry_eq (v : Byte) : incHalfCarry v = decide (v.toNat % 16 = 15) := by
  rw [incHalfCarry, Bool.eq_iff_iff, beq_iff_eq, decide_eq_true_iff, ← BitVec.toNat_inj, toNat_lowNibble]; rfl

theorem decHalfCarry_eq (v : Byte) : decHalfCarry v = decide (v.toNat % 16 = 0) := by
  rw [decHalfCarry, Bool.eq_iff_iff, beq_iff_eq, decide_eq_true_iff, ← BitVec.toNat_inj, toNat_lowNibble]; rfl

theorem addHalfCarry_eq (a b : Word) : addHalfCarry a b = decide (a.toNat % 4096 + b.toNat % 4096 ≥ 4096) := by
  rw [addHalfCarry, toNat_low12, toNat_low12]; rfl

theorem a_getLsbD (s : State) {k : Nat} (lt : k < 8) : s.a.getLsbD k = s.af.getLsbD (8 + k) := by
  rw [State.a, half_high, BitVec.getLsbD_extractLsb', decide_eq_true lt, Bool.true_and, reg_af]

/-- Settles O46: the first five clauses are the specs of the five flag-writing handlers, the last is R25's row of `F`. -/
theorem flagDispositions : Obligations.FlagDispositions := by
  intro i s t ran
  refine ⟨?inc, ?dec, ?add, ?left, ?right, ?others⟩
  case inc =>
    intro w h m
    obtain ⟨r, rfl, rfl, rfl⟩ := of_mem_incTarget m
    obtain rfl := (Effect.incReg r).unique ran
    obtain ⟨_, z, n, hf, c, _⟩ := incReg8_spec r s
    exact ⟨z.trans (add_one_eq_zero _), n, hf.trans (incHalfCarry_eq _), c⟩
  case dec =>
    intro w h m
    obtain ⟨r, rfl, rfl, rfl⟩ := of_mem_decTarget m
    obtain rfl := (Effect.decReg r).unique ran
    obtain ⟨_, z, n, hf, c, _⟩ := decReg8_spec r s
    exact ⟨z.trans (sub_one_eq_zero _), n, hf.trans (decHalfCarry_eq _), c⟩
  case add =>
    intro w m
    obtain ⟨p, rfl, rfl⟩ := of_mem_addSource m
    obtain rfl := (Effect.addHL p).unique ran
    obtain ⟨_, z, n, hf, c, _⟩ := addPairs_spec p s
    exact ⟨z, n, hf.trans (addHalfCarry_eq _ _), c⟩
  case left =>
    intro m
    obtain ⟨c, rfl⟩ := of_mem_leftRotates m
    obtain rfl := (Effect.rotateLeft c).unique ran
    obtain ⟨_, z, n, hf, cy, _⟩ := rotateLeftCarry_spec c s
    exact ⟨z, n, hf, cy.trans (a_getLsbD s (by decide))⟩
  case right =>
    intro m
    obtain ⟨c, rfl⟩ := of_mem_rightRotates m
    obtain rfl := (Effect.rotateRight c).unique ran
    obtain ⟨_, z, n, hf, cy, _⟩ := rotateRightCarry_spec c s
    exact ⟨z, n, hf, cy.trans (a_getLsbD s (by decide))⟩
  case others => exact registerWriters i s t ran .af .low (by decide)

end Sys2Proof.Machine
end

section
/-! PROOF. Which flags an instruction reads (R31): two states that differ in the flags byte alone are carried by every
operation to states that differ in it alone, as long as what is written agrees. -/

namespace Sys2Proof.Machine

/-- The two states agree in Memory and in every half, `PC` included, but the flags byte. -/
structure FlagsApart (s s' : State) : Prop where
  mem  : s'.mem = s.mem
  half : ∀ {w h}, (w, h) ≠ (.af, .low) → s'.half w h = s.half w h

theorem flagsApart_of_sameHalves {s s' : State} (mem : s'.mem = s.mem) (pc : s'.pc = s.pc)
    (halves : SameHalvesBut [(.af, .low)] s s') : FlagsApart s s' := by
  refine ⟨mem, fun {w h} ne => ?_⟩
  by_cases isPc : w = .pc
  · subst isPc; exact half_congr (r := .pc) pc h
  · exact halves w h isPc (by simpa using ne)

namespace FlagsApart

variable {s s' : State} (a : FlagsApart s s')
include a

/-! ### What the two states agree in -/

theorem reg {r : Reg16} (ne : r ≠ .af) : s'.reg r = s.reg r := by
  have same : ∀ h, s'.half r h = s.half r h := fun h => a.half fun eq => ne (Prod.mk.inj eq).1
  exact word_ext_halves (by simpa only [half_high] using same .high) (by simpa only [half_low] using same .low)

theorem acc : s'.a = s.a := a.half (by decide)

theorem reg8 (r : Reg8) : s'.reg8 r = s.reg8 r := a.half (reg8Target_ne r)

theorem reg_pair (p : Pair) : s'.reg (pairReg p) = s.reg (pairReg p) := a.reg (by cases p <;> decide)

theorem pc : s'.pc = s.pc := a.reg (r := .pc) (by decide)

theorem readByte (x : Word) : s'.readByte x = s.readByte x := readByte_congr a.mem x

theorem imm8 : s'.imm8 = s.imm8 := by rw [imm8_eq, imm8_eq, a.pc, a.readByte]

theorem imm16 : s'.imm16 = s.imm16 := by rw [imm16_eq, imm16_eq, a.pc, a.readByte, a.readByte]

theorem sameHalves : SameHalvesBut [(.af, .low)] s s' := fun _ _ _ ne => a.half (by simpa using ne)

/-! ### Operations that write the same to both -/

theorem writeByte {x x' : Word} {v v' : Byte} (addr : x' = x) (val : v' = v) :
    FlagsApart (s.writeByte x v) (s'.writeByte x' v') := by
  subst addr val
  exact ⟨congrArg (·.insert x'.toNat v') a.mem, fun {w h} ne =>
    (half_congr (writeByte_reg ..) h).trans ((a.half ne).trans (half_congr (writeByte_reg ..) h).symm)⟩

theorem writeWord {x x' v v' : Word} (addr : x' = x) (val : v' = v) :
    FlagsApart (s.writeWord x v) (s'.writeWord x' v') :=
  (a.writeByte addr (congrArg Word.low val)).writeByte (congrArg (· + 1) addr) (congrArg Word.high val)

theorem setReg (r : Reg16) {v v' : Word} (val : v' = v) : FlagsApart (s.setReg r v) (s'.setReg r v') := by
  subst val
  refine ⟨(setReg_mem ..).trans (a.mem.trans (setReg_mem ..).symm), fun {w h} ne => ?_⟩
  by_cases eq : w = r
  · subst eq
    exact half_congr ((reg_setReg_same ..).trans (reg_setReg_same ..).symm) h
  · rw [half_congr (reg_setReg_ne s' v' eq) h, half_congr (reg_setReg_ne s v' eq) h, a.half ne]

theorem setHalf (r : Reg16) (g : Half) {v v' : Byte} (val : v' = v) :
    FlagsApart (s.setHalf r g v) (s'.setHalf r g v') := by
  refine ⟨(setHalf_mem ..).trans (a.mem.trans (setHalf_mem ..).symm), fun {w h} ne => ?_⟩
  rw [half_setHalf, half_setHalf, val, a.half ne]

/-- Whatever flags are declared on either side. -/
theorem declareFlags (d d' : FlagDecl) : FlagsApart (s.declareFlags d) (s'.declareFlags d') :=
  ⟨a.mem, fun ne => (half_declareFlags d' ne).trans ((a.half ne).trans (half_declareFlags d ne).symm)⟩

theorem advancePC (k : Format) : FlagsApart (s.advancePC k) (s'.advancePC k) :=
  a.setReg .pc (congrArg (· + BitVec.ofNat 16 k.length) a.pc)

/-! ### Handlers that read a flag, or a word twice -/

theorem loadAccIndirect (ind : Indirect) : FlagsApart (loadAccIndirect ind s) (loadAccIndirect ind s') := by
  have addr : s'.reg (indirectReg ind) = s.reg (indirectReg ind) := a.reg (by cases ind <;> decide)
  refine (a.setHalf .af .high ?_).setReg (indirectReg ind) (congrArg (indirectAfter ind) addr)
  rw [addr, a.readByte]

/-- The rotates through the carry read `Cy`, the others read no flag. -/
theorem rotateLeftCarry (c : Bool) (carry : c = true → s'.flag .c = s.flag .c) :
    FlagsApart (rotateLeftCarry c s) (rotateLeftCarry c s') := by
  have result : rotatedLeft c s' = rotatedLeft c s := by
    cases c
    case false => simp only [rotatedLeft, a.acc, Bool.false_eq_true, if_false]
    case true => simp only [rotatedLeft, a.acc, carry rfl]
  exact (a.setHalf .af .high result).declareFlags _ _

theorem rotateRightCarry (c : Bool) (carry : c = true → s'.flag .c = s.flag .c) :
    FlagsApart (rotateRightCarry c s) (rotateRightCarry c s') := by
  have result : rotatedRight c s' = rotatedRight c s := by
    cases c
    case false => simp only [rotatedRight, a.acc, Bool.false_eq_true, if_false]
    case true => simp only [rotatedRight, a.acc, carry rfl]
  exact (a.setHalf .af .high result).declareFlags _ _

/-- A jump reads its condition. -/
theorem jumpRelative {c : Option Cond} (cond : s'.holds c = s.holds c) :
    FlagsApart (jumpRelative c s) (jumpRelative c s') := by
  have disp : s'.disp = s.disp := congrArg (BitVec.signExtend 16) a.imm8
  refine a.setReg .pc ?_
  rw [cond, reg_pc, reg_pc, a.pc, disp]

end FlagsApart

/-- The flags an instruction reads are all of the flags byte that its other results depend on. -/
theorem Effect.flagsApart {s s' t : State} {i : Instr} (e : Effect s i t) (a : FlagsApart s s')
    (agree : ∀ f ∈ flagsRead i, s'.flag f = s.flag f) : ∃ t', Effect s' i t' ∧ FlagsApart t t' := by
  cases e with
  | ldPairImm p => exact ⟨_, .ldPairImm p, (a.setReg (pairReg p) a.imm16).advancePC _⟩
  | stBC => exact ⟨_, .stBC, (a.writeByte (a.reg_pair .bc) a.acc).advancePC _⟩
  | stDE => exact ⟨_, .stDE, (a.writeByte (a.reg_pair .de) a.acc).advancePC _⟩
  | stSP => exact ⟨_, .stSP, (a.writeWord a.imm16 (a.reg_pair .sp)).advancePC _⟩
  | ldAccInd ind => exact ⟨_, .ldAccInd ind, (a.loadAccIndirect ind).advancePC _⟩
  | incPair p => exact ⟨_, .incPair p, (a.setReg (pairReg p) (congrArg (· + 1) (a.reg_pair p))).advancePC _⟩
  | decPair p => exact ⟨_, .decPair p, (a.setReg (pairReg p) (congrArg (· - 1) (a.reg_pair p))).advancePC _⟩
  | incReg r =>
    have inc := a.setHalf (reg8Word r) (reg8Half r) (congrArg (· + 1) (a.reg8 r))
    exact ⟨_, .incReg r, (inc.declareFlags _ _).advancePC _⟩
  | decReg r =>
    have dec := a.setHalf (reg8Word r) (reg8Half r) (congrArg (· - 1) (a.reg8 r))
    exact ⟨_, .decReg r, (dec.declareFlags _ _).advancePC _⟩
  | ldRegImm r => exact ⟨_, .ldRegImm r, (a.setHalf (reg8Word r) (reg8Half r) a.imm8).advancePC _⟩
  | rotateLeft c =>
    exact ⟨_, .rotateLeft c, (a.rotateLeftCarry c (by rintro rfl; exact agree .c (by decide))).advancePC _⟩
  | rotateRight c =>
    exact ⟨_, .rotateRight c, (a.rotateRightCarry c (by rintro rfl; exact agree .c (by decide))).advancePC _⟩
  | addHL p =>
    have sum := a.setReg .hl (congrArg₂ (· + ·) (a.reg_pair .hl) (a.reg_pair p))
    exact ⟨_, .addHL p, (sum.declareFlags _ _).advancePC _⟩
  | jr => exact ⟨_, .jr, a.jumpRelative rfl⟩
  | jrNZ => exact ⟨_, .jrNZ, a.jumpRelative (congrArg (!·) (agree .z (by decide)))⟩
  | jrZ => exact ⟨_, .jrZ, a.jumpRelative (agree .z (by decide))⟩
  | jrNC => exact ⟨_, .jrNC, a.jumpRelative (congrArg (!·) (agree .c (by decide)))⟩
  | jrC => exact ⟨_, .jrC, a.jumpRelative (agree .c (by decide))⟩

/-- Two states with `Z`, `N` and `Hf` clear that agree in `Cy` agree in every flag. -/
theorem flag_eq_of_cleared {t t' : State} {b b' : Bool}
    (h : t.flag .z = false ∧ t.flag .n = false ∧ t.flag .h = false ∧ t.flag .c = b)
    (h' : t'.flag .z = false ∧ t'.flag .n = false ∧ t'.flag .h = false ∧ t'.flag .c = b') (eq : b' = b) (f : Flag) :
    t'.flag f = t.flag f := by
  obtain ⟨z, n, hf, c⟩ := h
  obtain ⟨z', n', hf', c'⟩ := h'
  cases f
  case z => rw [z, z']
  case n => rw [n, n']
  case h => rw [hf, hf']
  case c => rw [c, c', eq]

/-- The flags a rotate leaves depend on the accumulator alone. -/
theorem flag_eq_of_rotate {s s' t t' : State} {i : Instr} (acc : s'.a = s.a) (ran : exec i s = .next t)
    (ran' : exec i s' = .next t') (m : i ∈ [Instr.rlca, .rrca, .rla, .rra]) (f : Flag) : t'.flag f = t.flag f := by
  obtain ⟨_, _, _, left, right, _⟩ := flagDispositions i s t ran
  obtain ⟨_, _, _, left', right', _⟩ := flagDispositions i s' t' ran'
  have bit : ∀ k < 8, s'.af.getLsbD (8 + k) = s.af.getLsbD (8 + k) := fun k lt => by
    rw [← a_getLsbD s' lt, ← a_getLsbD s lt, acc]
  have sides : ∀ j ∈ [Instr.rlca, .rrca, .rla, .rra], j ∈ [Instr.rlca, .rla] ∨ j ∈ [Instr.rrca, .rra] := by decide
  rcases sides i m with isLeft | isRight
  · exact flag_eq_of_cleared (left isLeft) (left' isLeft) (bit 7 (by decide)) f
  · exact flag_eq_of_cleared (right isRight) (right' isRight) (bit 0 (by decide)) f

/-- Settles O47: the effect from the first state has its like from the second. -/
theorem flagsReadOnlyWhereListed : Obligations.FlagsReadOnlyWhereListed := by
  intro i s s' t t' mem pc halves agree ran ran'
  have a := flagsApart_of_sameHalves mem pc halves
  obtain ⟨u, e, apart⟩ := (exec_cases ran).flagsApart a agree
  obtain rfl := e.unique ran'
  exact ⟨apart.mem, apart.pc, apart.sameHalves, fun m => flag_eq_of_rotate a.acc ran ran' m⟩

end Sys2Proof.Machine
end

section
/-! PROOF. Memory (R50 to R66): what a write, a list of writes, a 16-bit store and the load of an instruction do to every
byte, what the next fetch forms from the bytes stored, and which bytes a completed instruction can change. -/

namespace Sys2Proof.Machine

/-! ### One byte, and a list of bytes from reset -/

/-- Settles O8: the rules of a byte write. -/
theorem byteReadAfterWrite : Obligations.ByteReadAfterWrite := fun s a _ v =>
  ⟨readByte_writeByte_same s a v, readByte_writeByte_ne s v, writeByte_reg s a v⟩

/-- Settles O10, by the insertion that keeps the list canonical. -/
theorem memoryCanonicalFormKept : Obligations.MemoryCanonicalFormKept := fun _ a v wf => writeByte_mem_wf a v wf

/-- Settles O9, by induction on the writes with the latest one split off. -/
theorem memoryHoldsLatestWrite : Obligations.MemoryHoldsLatestWrite := by
  intro ws a
  induction ws using List.reverseRecOn with
  | nil => rfl
  | append_singleton ws w ih =>
    rw [List.foldl_concat, readByte_writeByte, List.reverse_concat]
    by_cases here : a = w.1
    · simp [here]
    · simp [here, Ne.symm here, ih]

/-! ### Stores and the bytes they leave alone -/

theorem sameMemoryBut_of_mem {s t : State} (mem : t.mem = s.mem) (addrs : List Word) : SameMemoryBut addrs s t :=
  fun b _ => readByte_congr mem b

theorem sameMemoryBut_writeByte (s : State) (a : Word) (v : Byte) : SameMemoryBut [a] s (s.writeByte a v) :=
  fun _ out => readByte_writeByte_ne s v (List.ne_of_not_mem_cons out)

theorem sameMemoryBut_writeWord (s : State) (a v : Word) : SameMemoryBut [a, a + 1] s (s.writeWord a v) := by
  intro b out
  obtain ⟨ne, ne_next⟩ : b ≠ a ∧ b ≠ a + 1 := by simpa using out
  rw [readByte_writeWord, if_neg ne_next, if_neg ne]

@[simp] theorem readByte_writeWord_low (s : State) (a v : Word) : (s.writeWord a v).readByte a = v.extractLsb' 0 8 := by
  rw [readByte_writeWord, if_neg (ne_succ a), if_pos rfl, low_eq]

@[simp] theorem readByte_writeWord_high (s : State) (a v : Word) :
    (s.writeWord a v).readByte (a + 1) = v.extractLsb' 8 8 := by
  rw [readByte_writeWord, if_pos rfl, high_eq]

theorem readWord_writeWord (s : State) (a v : Word) : (s.writeWord a v).readWord a = v := by
  rw [readWord_eq, readByte_writeWord_high, readByte_writeWord_low, append_extract]

/-- Settles O11: the bytes of the immediate and of the 16-bit store; `LD (nn),SP` is that store by definition. -/
theorem littleEndianWords : Obligations.LittleEndianWords := by
  refine ⟨?immediate, ?store, fun _ => rfl⟩
  case immediate =>
    intro s
    rw [imm16_eq, toNat_append]
  case store =>
    intro s a v
    exact ⟨readByte_writeWord_low s a v, readByte_writeWord_high s a v, readWord_writeWord s a v,
      sameMemoryBut_writeWord s a v⟩

/-! ### Which bytes an instruction can change -/

/-- A completed instruction changes no byte but those it stores to: only the three stores touch Memory at all. -/
theorem Effect.sameMemoryBut {s t : State} {i : Instr} (e : Effect s i t) : SameMemoryBut (storedAddrs i s) s t := by
  cases e with
  | stBC | stDE => exact sameMemoryBut_writeByte s _ _
  | stSP =>
    have addrs : storedAddrs .ldIndNnSP s = [s.imm16, s.imm16 + 1] := by rw [imm16_eq]; rfl
    rw [addrs]
    exact sameMemoryBut_writeWord s _ _
  | ldPairImm p | incPair p | decPair p => exact sameMemoryBut_of_mem ((advancePC_mem ..).trans (setReg_mem ..)) _
  | ldAccInd ind =>
    exact sameMemoryBut_of_mem ((advancePC_mem ..).trans ((setReg_mem ..).trans (setHalf_mem ..))) _
  | incReg r | decReg r | ldRegImm r => exact sameMemoryBut_of_mem (setReg8_mem ..) _
  | rotateLeft c | rotateRight c => exact sameMemoryBut_of_mem (setHalf_mem ..) _
  | addHL | jr | jrNZ | jrZ | jrNC | jrC => exact sameMemoryBut_of_mem rfl _

/-- Settles O49, by the family of the instruction. -/
theorem memoryWriters : Obligations.MemoryWriters := fun _ _ _ ran => (exec_cases ran).sameMemoryBut

/-! ### The fetch, by the byte at `PC` (R109) -/

theorem fetchOpIn_extended {s : State} (h : s.readByte s.pc = 0xCB) :
    s.fetchOpIn = Word.join 0xCB (s.readByte (s.pc + 1)) := if_pos h

theorem fetchOpIn_plain {s : State} (h : s.readByte s.pc ≠ 0xCB) :
    s.fetchOpIn = (s.readByte s.pc).setWidth 16 := if_neg h

theorem toNat_fetchOpIn_plain {s : State} (h : s.readByte s.pc ≠ 0xCB) :
    s.fetchOpIn.toNat = (s.readByte s.pc).toNat := by
  rw [fetchOpIn_plain h, BitVec.toNat_setWidth_of_le (by decide)]

/-! ### A store seen by the next fetch (R63) -/

/-- The stores of the accumulator, through either pair. -/
theorem fetchOpIn_of_storeAccToMemory {p : Pair} {s : State} (addr : s.reg (pairReg p) = s.pc + 1)
    (plain : s.af.extractLsb' 8 8 ≠ (0xCB : Byte)) :
    ((storeAccToMemory p s).advancePC .implied).fetchOpIn.toNat = s.af.toNat / 256 := by
  have stored : ((storeAccToMemory p s).advancePC .implied).readByte (s.pc + 1) = s.af.extractLsb' 8 8 := by
    rw [readByte_advancePC, storeAccToMemory_eq, addr, readByte_writeByte_same]
  exact (toNat_fetchOpIn_plain (fun h => plain (stored.symm.trans h))).trans
    ((congrArg BitVec.toNat stored).trans (toNat_extract_high s.af))

/-- The store of `SP`: its low byte is the next opcode, its high byte the next immediate byte. -/
theorem fetchOpIn_of_storeSPToMemory {s : State} (addr : s.imm16 = s.pc + 3)
    (plain : s.sp.extractLsb' 0 8 ≠ (0xCB : Byte)) :
    ((storeSPToMemory s).advancePC .imm16).fetchOpIn.toNat = s.sp.toNat % 256 ∧
      ((storeSPToMemory s).advancePC .imm16).imm8 = s.sp.extractLsb' 8 8 := by
  have store : storeSPToMemory s = s.writeWord (s.pc + 3) s.sp := by rw [← addr]; rfl
  have opcode : ((storeSPToMemory s).advancePC .imm16).readByte (s.pc + 3) = s.sp.extractLsb' 0 8 := by
    rw [readByte_advancePC, store, readByte_writeWord_low]
  have operand : ((storeSPToMemory s).advancePC .imm16).readByte (s.pc + 3 + 1) = s.sp.extractLsb' 8 8 := by
    rw [readByte_advancePC, store, readByte_writeWord_high]
  exact ⟨(toNat_fetchOpIn_plain (fun h => plain (opcode.symm.trans h))).trans
    ((congrArg BitVec.toNat opcode).trans (toNat_extract_low s.sp)), operand⟩

/-- Settles O30: each store is an effect, whose fetch is known where it stores to the next instruction. -/
theorem storeSeenByNextFetch : Obligations.StoreSeenByNextFetch := by
  intro s t
  refine ⟨fun ran addr plain => ?bc, fun ran addr plain => ?de, fun ran addr plain => ?sp⟩
  case bc => rw [Effect.stBC.unique ran]; exact fetchOpIn_of_storeAccToMemory addr plain
  case de => rw [Effect.stDE.unique ran]; exact fetchOpIn_of_storeAccToMemory addr plain
  case sp => rw [Effect.stSP.unique ran]; exact fetchOpIn_of_storeSPToMemory addr plain

/-! ### The loader's writes (R65) -/

@[simp] theorem writeBytes_reg (s : State) (a : Word) (bs : List Byte) (r : Reg16) :
    (s.writeBytes a bs).reg r = s.reg r := by
  induction bs generalizing s a with
  | nil => rfl
  | cons b bs ih => exact (ih ..).trans (writeByte_reg ..)

@[simp] theorem writeBytes_pc (s : State) (a : Word) (bs : List Byte) : (s.writeBytes a bs).pc = s.pc :=
  writeBytes_reg s a bs .pc

/-- An address that is none of those written keeps its byte. -/
theorem readByte_writeBytes_ne (s : State) {a b : Word} {bs : List Byte}
    (out : ∀ k < bs.length, b ≠ a + BitVec.ofNat 16 k) : (s.writeBytes a bs).readByte b = s.readByte b := by
  induction bs generalizing s a with
  | nil => rfl
  | cons v bs ih =>
    have ne : b ≠ a := by simpa using out 0 (Nat.succ_pos _)
    have tail : ∀ k < bs.length, b ≠ a + 1 + BitVec.ofNat 16 k := by
      intro k lt
      have shift : a + 1 + BitVec.ofNat 16 k = a + BitVec.ofNat 16 (k + 1) := by
        rw [Nat.add_comm, BitVec.ofNat_add, BitVec.add_assoc]; rfl
      exact shift ▸ out (k + 1) (Nat.succ_lt_succ lt)
    exact (ih _ tail).trans (readByte_writeByte_ne s v ne)

/-- The first byte stays, as long as the bytes after it do not run round the whole address space. -/
theorem readByte_writeBytes_head (s : State) (a : Word) (b : Byte) {bs : List Byte} (short : bs.length < 65536) :
    (s.writeBytes a (b :: bs)).readByte a = b := by
  refine (readByte_writeBytes_ne (s.writeByte a b) fun k lt => ?_).trans (readByte_writeByte_same s a b)
  have : k < 65536 := by omega
  bv_omega

/-! ### A loaded instruction (R65, R244) -/

/-- The fetch forms the `op_in` whose opcode bytes stand at `PC`, in either space. -/
theorem fetchOpIn_writeBytes_opcodeBytes (s : State) {w : Word} {bs : List Byte} (short : bs.length < 65535)
    (space : w.high = 0xCB ∨ (w.high = 0 ∧ w.low ≠ 0xCB)) :
    (s.writeBytes s.pc (opcodeBytes w ++ bs)).fetchOpIn = w := by
  rcases space with extended | ⟨plain, ne⟩
  · have bytes : opcodeBytes w ++ bs = 0xCB :: w.low :: bs := by rw [opcodeBytes, if_pos extended]; rfl
    have first := readByte_writeBytes_head s s.pc 0xCB (bs := w.low :: bs) (Nat.succ_lt_succ short)
    have second : (s.writeBytes s.pc (0xCB :: w.low :: bs)).readByte (s.pc + 1) = w.low :=
      readByte_writeBytes_head _ (s.pc + 1) w.low (by omega)
    rw [bytes, fetchOpIn_extended (by rw [writeBytes_pc, first]), writeBytes_pc, second, ← extended, join_high_low]
  · have bytes : opcodeBytes w ++ bs = w.low :: bs := by
      rw [opcodeBytes, if_neg (by rw [plain]; decide)]; rfl
    have first := readByte_writeBytes_head s s.pc w.low (bs := bs) (by omega)
    rw [bytes, fetchOpIn_plain (by rwa [writeBytes_pc, first]), writeBytes_pc, first, setWidth_low plain]

/-- The `op_in` of an instruction is extended, or plain with another opcode byte than `0xCB`. -/
theorem encode_space (i : Instr) : (encode i).high = 0xCB ∨ ((encode i).high = 0 ∧ (encode i).low ≠ 0xCB) := by
  obtain ⟨decoded, _⟩ := Laws.Encoding.all i
  rcases decode_some decoded with ⟨_, extended⟩ | ⟨plain, _, _, admitted⟩
  · left; rw [extended, high_join]
  · refine .inr ⟨plain, fun eq => ?_⟩
    rw [eq] at admitted
    exact absurd admitted (by decide)

theorem fetchOpIn_withFetchWord (i : Instr) (s : State) : (s.withFetchWord 16 (encode i).toNat).fetchOpIn = encode i := by
  rw [State.withFetchWord, tableBytes, BitVec.ofNat_toNat, BitVec.setWidth_eq]
  exact fetchOpIn_writeBytes_opcodeBytes s (by simp) (encode_space i)

theorem length_tableBytes_le (w : Nat) : (tableBytes w).length ≤ 4 := by
  unfold tableBytes opcodeBytes
  split <;> simp

theorem sameMemoryBut_withFetchWord (s : State) (n w : Nat) :
    SameMemoryBut [s.pc, s.pc + 1, s.pc + 2, s.pc + 3] s (s.withFetchWord n w) := by
  intro b out
  refine readByte_writeBytes_ne s fun k lt eq => out ?_
  have : k < 4 := Nat.lt_of_lt_of_le lt (length_tableBytes_le w)
  rw [eq]
  interval_cases k <;> simp

/-- Settles O26: the load stands its `op_in` at `PC`, and the decoder reads the instruction back from it. -/
theorem loadedInstructionRuns : Obligations.LoadedInstructionRuns := by
  intro i s
  obtain ⟨decoded, _⟩ := Laws.Encoding.all i
  refine ⟨?_, sameMemoryBut_withFetchWord s 16 _, writeBytes_reg s s.pc _⟩
  rw [step, fetchOpIn_withFetchWord]
  exact execute_of_decode decoded _

end Sys2Proof.Machine
end

section
/-! PROOF. The encoding (30_encoding.md): the fields of an opcode byte, the classes of `op_in`, the length an opcode byte
tells, and the bytes of an instruction, which the byte decoder reads back and reads no other way. -/

namespace Sys2Proof

open Machine

/-! ### Bytes of an opcode (R70, R71) -/

@[simp] theorem opcodeBytes_join (low : Byte) : opcodeBytes (Word.join 0xCB low) = [0xCB, low] := by
  simp [opcodeBytes]

@[simp] theorem opcodeBytes_setWidth (op : Byte) : opcodeBytes (op.setWidth 16) = [op] := by
  simp [opcodeBytes]

theorem decodeBytes_extended (low : Byte) (bs : List Byte) :
    decodeBytes (0xCB :: low :: bs) = decodeWith (Word.join 0xCB low) bs := rfl

theorem decodeBytes_plain {op : Byte} (ne : op ≠ 0xCB) (bs : List Byte) :
    decodeBytes (op :: bs) = decodeWith (op.setWidth 16) bs := if_neg ne

/-- The opcode bytes of an instruction's `op_in` are read as that `op_in`. -/
theorem decodeBytes_opcodeBytes_encode (i : Instr) (bs : List Byte) :
    decodeBytes (opcodeBytes (encode i) ++ bs) = decodeWith (encode i) bs := by
  rcases encode_space i with extended | ⟨plain, ne⟩
  · rw [← join_high_low (encode i), extended, opcodeBytes_join]
    exact decodeBytes_extended _ bs
  · rw [← setWidth_low plain, opcodeBytes_setWidth]
    exact decodeBytes_plain ne bs

/-- A list that decodes begins with the opcode bytes of the `op_in` it is decoded from. -/
theorem exists_opcodeBytes_of_decodeBytes {bs : List Byte} {r : Code × List Byte} (h : decodeBytes bs = .ok r) :
    ∃ w tail, bs = opcodeBytes w ++ tail ∧ decodeWith w tail = .ok r := by
  match bs with
  | [] => cases h
  | op :: tail =>
    by_cases prefixed : op = 0xCB
    · subst prefixed
      match tail with
      | [] => cases h
      | low :: tail => exact ⟨Word.join 0xCB low, tail, by rw [opcodeBytes_join]; rfl, h⟩
    · exact ⟨op.setWidth 16, tail, by rw [opcodeBytes_setWidth]; rfl, (decodeBytes_plain prefixed tail).symm.trans h⟩

/-! ### Bytes of an immediate (R73, R74) -/

/-- A format takes the immediate that fits it off the front of a list, and takes it in no other way. -/
theorem takeImm_ok_iff {f : Format} {bs rest : List Byte} {imm : Imm} :
    takeImm f bs = .ok (imm, rest) ↔ imm.fits f = true ∧ bs = imm.bytes ++ rest := by
  constructor
  · intro h
    match f, bs with
    | .implied, _ | .stub, _ => cases h; exact ⟨rfl, rfl⟩
    | .imm8, [] | .disp8, [] | .imm16, [] | .imm16, [_] => cases h
    | .imm8, _ :: _ | .disp8, _ :: _ => cases h; exact ⟨rfl, rfl⟩
    | .imm16, lo :: hi :: _ => cases h; simp [Imm.fits, Imm.bytes]
  · rintro ⟨fits, rfl⟩
    match f, imm with
    | .implied, .none | .stub, .none | .imm8, .byte _ | .disp8, .byte _ => rfl
    | .imm16, .word v => simp [takeImm, Imm.bytes, join_high_low]

/-- The bytes of a fitting immediate are those of the instruction after its one opcode byte; the stub has none. -/
theorem length_bytes_of_fits {f : Format} {imm : Imm} (fits : imm.fits f = true) : imm.bytes.length = f.length - 1 := by
  match f, imm with
  | .implied, .none | .stub, .none | .imm8, .byte _ | .disp8, .byte _ | .imm16, .word _ => rfl

theorem decodeWith_ok_iff {w : Word} {bs rest : List Byte} {c : Code} :
    decodeWith w bs = .ok (c, rest) ↔ decode w = some c.instr ∧ takeImm c.instr.format bs = .ok (c.imm, rest) := by
  obtain ⟨i, imm⟩ := c
  unfold decodeWith
  cases decode w with
  | none => simp
  | some j =>
    constructor
    · intro h
      cases taken : takeImm j.format bs with
      | error e => simp [taken] at h
      | ok p =>
        simp only [taken, Except.ok.injEq, Prod.mk.injEq, Code.mk.injEq] at h
        obtain ⟨⟨rfl, rfl⟩, rfl⟩ := h
        exact ⟨rfl, taken⟩
    · rintro ⟨⟨rfl⟩, taken⟩
      simp [taken]

/-! ### Instructions and their bytes -/

/-- The decoder and the encoder are inverse to each other. -/
theorem decode_eq_some_iff {w : Word} {i : Instr} : decode w = some i ↔ encode i = w := by
  constructor
  · exact encode_of_decode
  · rintro rfl
    obtain ⟨decoded, _⟩ := Laws.Encoding.all i
    exact decoded

/-- Every instruction has an admitted opcode, so that an immediate that fits is all well-formedness asks. -/
theorem wf_iff_fits (c : Code) : c.wf = true ↔ c.imm.fits c.instr.format = true := by
  obtain ⟨_, admitted, _⟩ := Laws.Encoding.all c.instr
  rw [Code.wf, Code.wfIn, admitted, Bool.and_true]

/-- The lists that decode are the encodings of well-formed instructions, followed by anything. -/
theorem decodeBytes_ok_iff {bs rest : List Byte} {c : Code} :
    decodeBytes bs = .ok (c, rest) ↔ c.wf = true ∧ bs = encodeBytes c ++ rest := by
  rw [wf_iff_fits]
  constructor
  · intro h
    obtain ⟨w, tail, rfl, read⟩ := exists_opcodeBytes_of_decodeBytes h
    obtain ⟨decoded, taken⟩ := decodeWith_ok_iff.mp read
    obtain ⟨fits, rfl⟩ := takeImm_ok_iff.mp taken
    obtain rfl := decode_eq_some_iff.mp decoded
    exact ⟨fits, (List.append_assoc ..).symm⟩
  · rintro ⟨fits, rfl⟩
    rw [encodeBytes, List.append_assoc, decodeBytes_opcodeBytes_encode]
    exact decodeWith_ok_iff.mpr ⟨decode_eq_some_iff.mpr rfl, takeImm_ok_iff.mpr ⟨fits, rfl⟩⟩

theorem length_opcodeBytes_encode (i : Instr) :
    (opcodeBytes (encode i)).length = if i.format = .stub then 2 else 1 := by
  rcases decode_some (decode_eq_some_iff.mpr rfl : decode (encode i) = some i) with ⟨stub, e⟩ | ⟨plain, _, notStub, _⟩
  · have : i.format = .stub := by rw [stub]; rfl
    rw [e, opcodeBytes_join, if_pos this]; rfl
  · rw [← setWidth_low plain, opcodeBytes_setWidth, if_neg notStub]; rfl

theorem length_pos_of_not_stub {f : Format} (h : f ≠ .stub) : 0 < f.length := by
  cases f
  case stub => exact absurd rfl h
  all_goals exact Nat.succ_pos _

theorem length_encodeBytes {c : Code} (wf : c.wf = true) :
    (encodeBytes c).length = if c.instr.format = .stub then 2 else c.instr.length := by
  have imm := length_bytes_of_fits ((wf_iff_fits c).mp wf)
  rw [encodeBytes, List.length_append, length_opcodeBytes_encode, imm]
  split
  case isTrue stub => rw [stub]; rfl
  case isFalse notStub => exact Nat.add_sub_cancel' (length_pos_of_not_stub notStub)

/-- Settles O16: the encoding of a well-formed instruction is one of the lists that decode, and to it. -/
theorem encodeThenDecode : Obligations.EncodeThenDecode :=
  fun _ _ wf => ⟨decodeBytes_ok_iff.mpr ⟨wf, rfl⟩, length_encodeBytes wf⟩

/-- Settles O17: there are no other lists that decode. -/
theorem decodeThenEncode : Obligations.DecodeThenEncode := fun _ _ _ => decodeBytes_ok_iff.mp

/-- Settles O18: a table word is an `op_in`, and decoding has an inverse. -/
theorem tableWordsUnambiguous : Obligations.TableWordsUnambiguous := by
  refine ⟨fun i => ?_, fun v w i hv hw => ?_⟩
  · rw [decodeTableWord, BitVec.ofNat_toNat, BitVec.setWidth_eq]
    exact decode_eq_some_iff.mpr rfl
  · exact (encode_of_decode hv).symm.trans (encode_of_decode hw)

/-! ### Classes of `op_in` (R71, R78 to R81) -/

/-- R78 and R79 name complementary sets: the admitted opcode bytes are those below 0x40 that are not excluded. -/
theorem admitted_iff : ∀ op : Byte, Config.admitted op = true ↔
    op < 0x40 ∧ op ∉ [(0x00 : Byte), 0x10, 0x22, 0x27, 0x2F, 0x32, 0x34, 0x35, 0x36, 0x37, 0x3F] := by
  decide +kernel

/-- Every admitted opcode byte has a row in the table of R76. -/
theorem decodePlain_isSome_of_admitted : ∀ op ∈ Config.admittedOpcodes, (decodePlain op).isSome = true := by
  decide +kernel

theorem decode_eq_decodePlain {w : Word} (z : w.high = 0) :
    decode w = if Config.admitted w.low then decodePlain w.low else none := decodeIn_plain Config.admitted z

theorem exists_decode_of_admitted {w : Word} (z : w.high = 0) (adm : Config.admitted w.low = true) :
    ∃ i, decode w = some i ∧ encode i = w ∧ i.format ≠ .stub := by
  obtain ⟨i, row⟩ := Option.isSome_iff_exists.mp (decodePlain_isSome_of_admitted w.low (List.contains_iff_mem.mp adm))
  have decoded : decode w = some i := by rw [decode_eq_decodePlain z, if_pos adm, row]
  obtain ⟨_, notStub, _⟩ := decode_plain_cases w.low i (by rw [setWidth_low z, decoded]; rfl)
  exact ⟨i, decoded, encode_of_decode decoded, notStub⟩

/-- Settles O14, by the high byte of `op_in` and, in the plain space, by whether its opcode byte is admitted. -/
theorem opInClasses : Obligations.OpInClasses := by
  intro w
  rw [← high_eq, ← low_eq]
  refine ⟨?stub, ?admitted, fun ⟨c, z⟩ => decode_other c z, ?unknown⟩
  case stub =>
    intro c
    have stub := decode_stub w.low
    rwa [← c, join_high_low] at stub
  case admitted =>
    intro z below notExcluded
    exact exists_decode_of_admitted z ((admitted_iff w.low).mpr ⟨below, notExcluded⟩)
  case unknown =>
    intro z out
    refine decodeIn_of_not_admitted z (Bool.eq_false_iff.mpr fun adm => ?_)
    obtain ⟨below, notExcluded⟩ := (admitted_iff w.low).mp adm
    exact out.elim (BitVec.not_le.mpr below) notExcluded

/-! ### Fields (R72) -/

theorem toNat_fieldX (op : Byte) : (fieldX op).toNat = op.toNat / 64 := by
  have := op.isLt
  simp only [fieldX, BitVec.extractLsb'_toNat, Nat.shiftRight_eq_div_pow]; omega

theorem toNat_fieldY (op : Byte) : (fieldY op).toNat = op.toNat / 8 % 8 := by
  simp [fieldY, BitVec.extractLsb'_toNat, Nat.shiftRight_eq_div_pow]

theorem toNat_fieldZ (op : Byte) : (fieldZ op).toNat = op.toNat % 8 := by
  simp [fieldZ, BitVec.extractLsb'_toNat]

theorem toNat_fieldP (op : Byte) : (fieldP op).toNat = op.toNat / 16 % 4 := by
  simp [fieldP, BitVec.extractLsb'_toNat, Nat.shiftRight_eq_div_pow]

theorem toNat_fieldQ (op : Byte) : (fieldQ op).toNat = op.toNat / 8 % 2 := by
  simp [fieldQ, BitVec.extractLsb'_toNat, Nat.shiftRight_eq_div_pow]

/-- Settles O12: each field as a quotient and a remainder of the byte. -/
theorem opcodeFields : Obligations.OpcodeFields := by
  intro op
  have := op.isLt
  rw [toNat_fieldX, toNat_fieldY, toNat_fieldZ, toNat_fieldP, toNat_fieldQ]
  omega

/-! ### Lengths (R73, R82) -/

theorem length_ldPairImm (p : Pair) : (ldPairImm p).length = 3 := by cases p <;> rfl
theorem length_addHL (p : Pair) : (addHL p).length = 1 := by cases p <;> rfl
theorem length_ldAccInd (ind : Indirect) : (ldAccInd ind).length = 1 := by cases ind <;> rfl
theorem length_incPair (p : Pair) : (incPair p).length = 1 := by cases p <;> rfl
theorem length_decPair (p : Pair) : (decPair p).length = 1 := by cases p <;> rfl
theorem length_incReg (r : Reg8) : (incReg r).length = 1 := by cases r <;> rfl
theorem length_decReg (r : Reg8) : (decReg r).length = 1 := by cases r <;> rfl
theorem length_ldRegImm (r : Reg8) : (ldRegImm r).length = 2 := by cases r <;> rfl

theorem length_of_stAccInd {p : Pair} {i : Instr} (h : stAccInd p = some i) : i.length = 1 := by
  cases p <;> cases h <;> rfl

/-- The rows `z = 0`: the store of `SP` at `y = 1`, the relative jumps from `y = 3` on. -/
theorem length_of_decodeZ0 : ∀ y : BitVec 3, ∀ i ∈ decodeZ0 y,
    (y.toNat = 1 ∧ i.length = 3) ∨ (3 ≤ y.toNat ∧ i.length = 2) := by decide

theorem length_of_decodeZ7 {y : BitVec 3} {i : Instr} (h : decodeZ7 y = some i) : i.length = 1 := by
  unfold decodeZ7 at h
  split at h <;> cases h <;> rfl

/-- The length that R82 gives an opcode byte of the plain space. -/
def plainLength (op : Nat) : Nat :=
  if (op % 8 = 1 ∧ op / 8 % 2 = 0) ∨ op = 0x08 then 3
  else if op % 8 = 6 ∨ (op % 8 = 0 ∧ op / 8 % 8 ≥ 3) then 2
  else 1

/-- By the row of R76, which `z` selects. -/
theorem length_of_decodePlain {op : Byte} {i : Instr} (h : decodePlain op = some i) :
    i.length = plainLength op.toNat := by
  have z := toNat_fieldZ op
  have y := toNat_fieldY op
  have q : fieldQ op = 0 ↔ op.toNat / 8 % 2 = 0 := by rw [← BitVec.toNat_inj, toNat_fieldQ]; rfl
  unfold decodePlain at h
  split at h
  case isTrue => cases h
  case isFalse x =>
    have below : op.toNat < 64 := by
      have x0 : (fieldX op).toNat = 0 := congrArg BitVec.toNat (not_not.mp x)
      rw [toNat_fieldX] at x0; omega
    unfold plainLength
    split at h
    case h_1 => -- the store of `SP`, relative jumps
      rcases length_of_decodeZ0 (fieldY op) i h with ⟨y1, l⟩ | ⟨y3, l⟩ <;> rw [l] <;> split_ifs <;> omega
    case h_2 => -- 16-bit immediate loads, 16-bit add
      simp only [q] at h
      split at h <;> cases h
      · rw [length_ldPairImm, if_pos (by omega)]
      · rw [length_addHL]; split_ifs <;> omega
    case h_3 => -- accumulator stores and loads
      have l : i.length = 1 := by
        split at h
        · exact length_of_stAccInd h
        · cases h; exact length_ldAccInd _
      rw [l]; split_ifs <;> omega
    case h_4 => -- 16-bit increment and decrement
      have l : i.length = 1 := by
        split at h <;> cases h
        · exact length_incPair _
        · exact length_decPair _
      rw [l]; split_ifs <;> omega
    case h_5 => -- 8-bit increment
      obtain ⟨r, _, rfl⟩ := Option.map_eq_some_iff.mp h
      rw [length_incReg]; split_ifs <;> omega
    case h_6 => -- 8-bit decrement
      obtain ⟨r, _, rfl⟩ := Option.map_eq_some_iff.mp h
      rw [length_decReg]; split_ifs <;> omega
    case h_7 => -- 8-bit immediate loads
      obtain ⟨r, _, rfl⟩ := Option.map_eq_some_iff.mp h
      rw [length_ldRegImm]; split_ifs <;> omega
    case h_8 => -- rotates: the fallback row, met when `z` is none of the values before it
      simp only [imp_false] at *
      rw [length_of_decodeZ7 h]; split_ifs <;> omega

/-- Settles O15: an `op_in` of the plain space is its opcode byte, whose length the rows of the decoder tell. -/
theorem lengthFromOpcode : Obligations.LengthFromOpcode := by
  intro w i decoded plain
  have z : w.high = 0 := (high_eq w).trans plain
  have row : decodePlain w.low = some i := by
    rw [decode_eq_decodePlain z] at decoded
    exact (Option.ite_none_right_eq_some.mp decoded).2
  have byte : w.low.toNat = w.toNat := by
    conv_rhs => rw [← setWidth_low z, BitVec.toNat_setWidth_of_le (by decide)]
  exact byte ▸ length_of_decodePlain row

/-! ### Known words (R77, R111) -/

/-- Settles O13, each word by evaluation. -/
theorem knownWordsDecode : Obligations.KnownWordsDecode := by
  unfold Obligations.KnownWordsDecode
  decide

end Sys2Proof
end

section
/-! PROOF. The dispatcher (40_dispatch.md): the three ends of a transaction, the `op_in` that the reference fetch forms and
the instruction the bytes at `PC` are, and the ends of a run. -/

namespace Sys2Proof.Machine

/-! ### A transaction (R101, R104, R105, R225) -/

/-- Settles O20: the three classes of `execute`, each with its end state. -/
theorem transactionOutcomes : Obligations.TransactionOutcomes := by
  intro w s
  rcases execute_cases w s with ⟨i, t, decoded, notStub, ran, done⟩ | ⟨unknown, _⟩ | ⟨extended, _, refused⟩
  · exact .inl ⟨i, t, decoded, notStub, ran, transact_of_next done⟩
  · exact .inr (.inl ⟨unknown, transact_of_unknown unknown s⟩)
  · have high : w.high = 0xCB := by rw [extended, high_join]
    exact .inr (.inr ⟨(high_eq w).symm.trans high, transact_of_refused refused⟩)

/-- Settles O21: the two unknown classes of `op_in` decode to no instruction. -/
theorem unknownOpcodeChangesNothing : Obligations.UnknownOpcodeChangesNothing := by
  intro w s outside
  obtain ⟨_, _, otherHigh, plain⟩ := opInClasses w
  have unknown : decode w = none := by
    rcases outside with ⟨nonzero, notExtended⟩ | ⟨zero, out⟩
    · exact otherHigh ⟨notExtended, nonzero⟩
    · exact plain zero out
  have ended := transact_of_unknown unknown s
  exact ⟨ended, by rw [ended]; rfl⟩

theorem execute_extended (low : Byte) (s : State) :
    execute (Word.join 0xCB low) s = .refused (.extendedStub (Word.join 0xCB low)) :=
  execute_of_decode (decode_stub low) s

/-- Settles O22: every extended `op_in` decodes to the stub, which is refused. -/
theorem extendedStubRefused : Obligations.ExtendedStubRefused := by
  intro low s
  rw [← join_eq]
  exact ⟨exec_stub low s, transact_of_refused (execute_extended low s)⟩

/-! ### The fetch and the bytes at `PC` (R109) -/

/-- Settles O25, by the byte at `PC`. -/
theorem referenceFetch : Obligations.ReferenceFetch := by
  intro s
  refine ⟨toNat_fetchOpIn_plain, fun extended => ?_, rfl⟩
  rw [fetchOpIn_extended extended, extended, join_eq]

/-- The fetch forms an extended `op_in` only at the byte `0xCB`. -/
theorem readByte_pc_of_fetchOpIn_high {s : State} (h : s.fetchOpIn.high = 0xCB) : s.readByte s.pc = 0xCB := by
  by_contra plain
  rw [fetchOpIn_plain plain, high_setWidth] at h
  exact absurd h (by decide)

/-- The instruction that the bytes at `PC` decode to is that of the fetched `op_in`, and in the plain space its immediate
stands right after the opcode byte. -/
theorem fetch_of_decodeBytes {s : State} {c : Code} {rest : List Byte}
    (h : decodeBytes [s.readByte s.pc, s.readByte (s.pc + 1), s.readByte (s.pc + 2)] = .ok (c, rest)) :
    decode s.fetchOpIn = some c.instr ∧
      (c.imm = .none ∨ [s.readByte (s.pc + 1), s.readByte (s.pc + 2)] = c.imm.bytes ++ rest) := by
  by_cases extended : s.readByte s.pc = 0xCB
  · rw [extended, decodeBytes_extended, ← fetchOpIn_extended extended] at h
    obtain ⟨decoded, taken⟩ := decodeWith_ok_iff.mp h
    refine ⟨decoded, .inl ?_⟩
    have stub : c.instr = .extendedStub (s.readByte (s.pc + 1)) := by
      rw [fetchOpIn_extended extended, decode_stub] at decoded
      exact (Option.some.inj decoded).symm
    rw [stub] at taken
    exact (Prod.mk.inj (Except.ok.inj taken)).1.symm
  · rw [decodeBytes_plain extended, ← fetchOpIn_plain extended] at h
    obtain ⟨decoded, taken⟩ := decodeWith_ok_iff.mp h
    obtain ⟨_, bytes⟩ := takeImm_ok_iff.mp taken
    exact ⟨decoded, .inr bytes⟩

/-- Settles O24: the step runs the instruction fetched, and an immediate decoded is what `exec` reads at `PC + 1`. -/
theorem stepRunsDecodedInstruction : Obligations.StepRunsDecodedInstruction := by
  rintro s ⟨i, imm⟩ rest h
  obtain ⟨decoded, bytes⟩ := fetch_of_decodeBytes h
  refine ⟨execute_of_decode decoded s, ?byte, ?word⟩
  case byte =>
    rintro v rfl
    obtain none | bytes := bytes
    · cases none
    · exact (List.cons.inj bytes).1
  case word =>
    rintro v rfl
    obtain none | bytes := bytes
    · cases none
    · obtain ⟨low, high, _⟩ : s.readByte (s.pc + 1) = v.low ∧ s.readByte (s.pc + 2) = v.high ∧ [] = rest := by
        simpa [Imm.bytes] using bytes
      rw [imm16_eq, low, high, ← join_eq, join_high_low]

/-! ### What a step can answer (R110) -/

theorem step_of_unknown {s : State} (h : decode s.fetchOpIn = none) : EndsAt s s.fetchOpIn := execute_of_unknown h s

theorem step_of_extended {s : State} (h : s.fetchOpIn.high = 0xCB) : step s = .refused (.extendedStub s.fetchOpIn) := by
  have refused := execute_extended s.fetchOpIn.low s
  rwa [← h, join_high_low] at refused

/-- A step that faults fetched an unknown opcode, and names it. -/
theorem step_fault {s : State} {w : Word} (h : EndsAt s w) : w = s.fetchOpIn ∧ decode s.fetchOpIn = none := by
  unfold EndsAt step at h
  rcases execute_cases s.fetchOpIn s with ⟨_, _, _, _, _, e⟩ | ⟨unknown, e⟩ | ⟨_, _, e⟩
  · rw [e] at h; cases h
  · rw [e] at h; cases h; exact ⟨rfl, unknown⟩
  · rw [e] at h; cases h

/-- A step that is refused fetched an extended opcode, and names it. -/
theorem step_refused {s : State} {r : Refusal} (h : step s = .refused r) :
    r = .extendedStub s.fetchOpIn ∧ s.fetchOpIn.high = 0xCB := by
  unfold step at h
  rcases execute_cases s.fetchOpIn s with ⟨_, _, _, _, _, e⟩ | ⟨_, e⟩ | ⟨extended, _, e⟩
  · rw [e] at h; cases h
  · rw [e] at h; cases h
  · rw [e] at h; cases h; exact ⟨rfl, by rw [extended, high_join]⟩

/-- Every other step is a `Done` transaction. -/
theorem step_completes {s : State} (known : decode s.fetchOpIn ≠ none) (plain : s.fetchOpIn.high ≠ 0xCB) :
    ∃ t, step s = .next t := by
  unfold step
  rcases execute_cases s.fetchOpIn s with ⟨_, t, _, _, _, e⟩ | ⟨unknown, _⟩ | ⟨extended, _⟩
  · exact ⟨t, e⟩
  · exact absurd unknown known
  · exact absurd (by rw [extended, high_join]) plain

/-! ### Runs (R110) -/

theorem run_succ_of_next {s t : State} (h : step s = .next t) (k : Nat) : core.run (k + 1) s = core.run k t := by
  have h' : core.step s = .next t := h
  simp only [Host.Core.run, h']

/-- A step that is no `Done` transaction is the end of the run. -/
theorem run_succ_of_end {s : State} (h : ∀ t, step s ≠ .next t) (k : Nat) : core.run (k + 1) s = step s := by
  cases answer : core.step s with
  | next t => exact absurd answer (h t)
  | fault f | refused r =>
    simp only [Host.Core.run, answer]
    exact answer.symm

theorem not_runsTo_of_end {s : State} (h : ∀ t, step s ≠ .next t) {k : Nat} (pos : 0 < k) (t : State) :
    ¬ RunsTo k s t := by
  intro run
  obtain ⟨k, rfl⟩ := Nat.exists_eq_succ_of_ne_zero pos.ne'
  exact h t ((run_succ_of_end h k).symm.trans run)

/-- Settles O28: each clause is one of the answers of a step, read in one direction or the other. -/
theorem endOfRunKeepsState : Obligations.EndOfRunKeepsState := by
  intro s
  rw [← high_eq]
  refine ⟨step_of_unknown, step_of_extended, ?goesOn, ?faulted, ?refused⟩
  case goesOn =>
    intro known plain
    obtain ⟨t, next⟩ := step_completes known plain
    exact ⟨t, run_succ_of_next next 0⟩
  case faulted =>
    intro w ended
    obtain ⟨rfl, unknown⟩ := step_fault ended
    have isEnd : ∀ t, step s ≠ .next t := fun t next => by cases next.symm.trans ended
    exact ⟨rfl, unknown, transact_of_unknown unknown s, fun k t pos => not_runsTo_of_end isEnd pos t⟩
  case refused =>
    intro r ended
    obtain ⟨rfl, extended⟩ := step_refused ended
    have isEnd : ∀ t, step s ≠ .next t := fun t next => by cases next.symm.trans ended
    exact ⟨rfl, extended, transact_of_refused ended, fun k t pos => not_runsTo_of_end isEnd pos t⟩

/-- Settles O29, by induction on the number of steps: the first step is refused, or the run goes on from where it led. -/
theorem refusalOnlyAtPrefix : Obligations.RefusalOnlyAtPrefix := by
  intro k
  induction k with
  | zero => intro s r run; cases run
  | succ k ih =>
    intro s r run
    by_cases next : ∃ t, step s = .next t
    · obtain ⟨t, next⟩ := next
      rw [run_succ_of_next next] at run
      obtain ⟨j, u, lt, reached, byte, named⟩ := ih t r run
      exact ⟨j + 1, u, Nat.succ_lt_succ lt, (run_succ_of_next next j).trans reached, byte, named⟩
    · have ended : step s = .refused r := (run_succ_of_end (not_exists.mp next) k).symm.trans run
      obtain ⟨rfl, extended⟩ := step_refused ended
      have byte := readByte_pc_of_fetchOpIn_high extended
      exact ⟨0, s, Nat.succ_pos k, rfl, byte, by rw [fetchOpIn_extended byte, join_eq]⟩

end Sys2Proof.Machine
end

section
/-! PROOF. The program counter (R103, R205): the dispatcher's advance by the instruction's length, and the two places a
relative jump can set it to. -/

namespace Sys2Proof.Machine

theorem length_le_three (i : Instr) : i.length ≤ 3 := by
  obtain ⟨_, _, le⟩ := Laws.Encoding.all i
  exact le

/-- The one instruction with no length, the stub (R82), does not complete. -/
theorem Effect.length_pos {s t : State} {i : Instr} (e : Effect s i t) : 0 < i.length := by
  cases e with
  | ldPairImm x | ldAccInd x | incPair x | decPair x | incReg x | decReg x | ldRegImm x | addHL x | rotateLeft x
    | rotateRight x => cases x <;> decide
  | stBC | stDE | stSP | jr | jrNZ | jrZ | jrNC | jrC => decide

theorem jumpRelative_pc (c : Option Cond) (s : State) :
    (jumpRelative c s).pc = s.pc + 2 ∨ (jumpRelative c s).pc = s.pc + 2 + s.disp := by
  unfold jumpRelative
  split
  · exact .inr rfl
  · exact .inl rfl

/-- No handler but a relative jump moves `PC`, so that the dispatcher's advance is all that does (R103). -/
theorem Effect.pc_of_not_jump {s t : State} {i : Instr} (e : Effect s i t) (notJump : i ∉ jumpInstrs) :
    t.pc = s.pc + BitVec.ofNat 16 i.length := by
  cases e with
  | ldPairImm p | incPair p | decPair p | addHL p => cases p <;> rfl
  | ldAccInd ind => cases ind <;> rfl
  | incReg r | decReg r | ldRegImm r => cases r <;> rfl
  | rotateLeft c | rotateRight c => cases c <;> rfl
  | stBC | stDE | stSP => rfl
  | jr | jrNZ | jrZ | jrNC | jrC => exact absurd (by decide) notJump

theorem Effect.pc_of_jump {s t : State} {i : Instr} (e : Effect s i t) (jump : i ∈ jumpInstrs) :
    t.pc = s.pc + 2 ∨ t.pc = s.pc + 2 + s.disp := by
  cases e with
  | jr | jrNZ | jrZ | jrNC | jrC => exact jumpRelative_pc _ s
  | ldPairImm x | ldAccInd x | incPair x | decPair x | incReg x | decReg x | ldRegImm x | addHL x | rotateLeft x
    | rotateRight x => exact absurd jump (by cases x <;> decide)
  | stBC | stDE | stSP => exact absurd jump (by decide)

/-- Settles O27, by whether the instruction is a relative jump. -/
theorem programCounterAdvance : Obligations.ProgramCounterAdvance := by
  intro i s t ran
  have e := exec_cases ran
  refine ⟨fun notJump => ⟨?_, e.length_pos, length_le_three i⟩, fun jump => ?_⟩
  · rw [e.pc_of_not_jump notJump, BitVec.toNat_add, BitVec.toNat_ofNat, Nat.add_mod_mod]
  · rw [← pc_add_two, ← pc_add_disp]
    exact e.pc_of_jump jump

end Sys2Proof.Machine
end

section
/-! PROOF. The byte at `PC` is not read by the instruction that runs there (R107): two states that differ in that byte alone
are carried by every operation to states that differ in it alone, as long as what is read lies elsewhere. -/

namespace Sys2Proof.Machine

/-- The two states agree in every word, and in every byte of Memory but the one at `x`. -/
structure ByteApart (x : Word) (s s' : State) : Prop where
  reg : ∀ r, s'.reg r = s.reg r
  mem : SameMemoryBut [x] s s'

theorem byteApart_writeByte (s : State) (x : Word) (v : Byte) : ByteApart x s (s.writeByte x v) :=
  ⟨writeByte_reg s x v, sameMemoryBut_writeByte s x v⟩

namespace ByteApart

variable {x : Word} {s s' : State} (a : ByteApart x s s')
include a

/-! ### What the two states agree in -/

theorem readByte {b : Word} (ne : b ≠ x) : s'.readByte b = s.readByte b := a.mem b (by simpa using ne)

theorem pc : s'.pc = s.pc := a.reg .pc

theorem half (r : Reg16) (h : Half) : s'.half r h = s.half r h := half_congr (a.reg r) h

theorem flag (f : Flag) : s'.flag f = s.flag f := flag_congr (a.half .af .low) f

theorem holds (c : Option Cond) : s'.holds c = s.holds c := by
  rcases c with _ | _ | _ | _ | _ <;> simp only [State.holds, a.flag]

/-! ### Operations that write the same to both -/

theorem setReg (r : Reg16) {v v' : Word} (val : v' = v) : ByteApart x (s.setReg r v) (s'.setReg r v') := by
  subst val
  refine ⟨fun q => ?_, fun b out => ?_⟩
  · by_cases eq : q = r
    · subst eq; rw [reg_setReg_same, reg_setReg_same]
    · rw [reg_setReg_ne s' v' eq, reg_setReg_ne s v' eq, a.reg]
  · rw [readByte_setReg, readByte_setReg, a.mem b out]

theorem setHalf (r : Reg16) (g : Half) {v v' : Byte} (val : v' = v) :
    ByteApart x (s.setHalf r g v) (s'.setHalf r g v') :=
  a.setReg r (congrArg₂ (setHalfOf · g ·) (a.reg r) val)

theorem declareFlags {d d' : FlagDecl} (decl : d' = d) : ByteApart x (s.declareFlags d) (s'.declareFlags d') :=
  a.setReg .af (by rw [decl, a.reg .af])

theorem advancePC (k : Format) : ByteApart x (s.advancePC k) (s'.advancePC k) :=
  a.setReg .pc (congrArg (· + BitVec.ofNat 16 k.length) a.pc)

theorem writeByte {b b' : Word} {v v' : Byte} (addr : b' = b) (val : v' = v) :
    ByteApart x (s.writeByte b v) (s'.writeByte b' v') := by
  subst addr val
  refine ⟨fun r => ?_, fun c out => ?_⟩
  · rw [writeByte_reg, writeByte_reg, a.reg]
  · rw [readByte_writeByte, readByte_writeByte, a.mem c out]

theorem writeWord {b b' v v' : Word} (addr : b' = b) (val : v' = v) :
    ByteApart x (s.writeWord b v) (s'.writeWord b' v') :=
  (a.writeByte addr (congrArg Word.low val)).writeByte (congrArg (· + 1) addr) (congrArg Word.high val)

/-! ### Handlers that read a word more than once -/

theorem setReg8_declareFlags (r : Reg8) (f : Byte → Byte) (d : Byte → FlagDecl) :
    ByteApart x ((s.setReg8 r (f (s.reg8 r))).declareFlags (d (s.reg8 r)))
      ((s'.setReg8 r (f (s'.reg8 r))).declareFlags (d (s'.reg8 r))) := by
  have old : s'.reg8 r = s.reg8 r := a.half (reg8Word r) (reg8Half r)
  exact (a.setHalf (reg8Word r) (reg8Half r) (congrArg f old)).declareFlags (congrArg d old)

theorem rotateLeftCarry (c : Bool) : ByteApart x (rotateLeftCarry c s) (rotateLeftCarry c s') := by
  have acc : s'.a = s.a := a.half .af .high
  refine (a.setHalf .af .high ?_).declareFlags (by rw [acc])
  rw [acc, a.flag]

theorem rotateRightCarry (c : Bool) : ByteApart x (rotateRightCarry c s) (rotateRightCarry c s') := by
  have acc : s'.a = s.a := a.half .af .high
  refine (a.setHalf .af .high ?_).declareFlags (by rw [acc])
  rw [acc, a.flag]

theorem addPairs (p : Pair) : ByteApart x (addPairs p s) (addPairs p s') :=
  (a.setReg .hl (congrArg₂ (· + ·) (a.reg .hl) (a.reg (pairReg p)))).declareFlags
    (congrArg₂ addFlags (a.reg .hl) (a.reg (pairReg p)))

/-- A load of the accumulator from another address. -/
theorem loadAccIndirect {ind : Indirect} (elsewhere : s.reg (indirectReg ind) ≠ x) :
    ByteApart x (loadAccIndirect ind s) (loadAccIndirect ind s') := by
  have addr := a.reg (indirectReg ind)
  refine (a.setHalf .af .high ?_).setReg (indirectReg ind) (congrArg (indirectAfter ind) addr)
  rw [addr, a.readByte elsewhere]

end ByteApart

/-! ### The immediates stand after the byte at `PC`, also round the top of Memory -/

theorem ByteApart.imm8 {s s' : State} (a : ByteApart s.pc s s') : s'.imm8 = s.imm8 := by
  rw [imm8_eq, imm8_eq, a.pc, a.readByte (succ_ne s.pc)]

theorem ByteApart.imm16 {s s' : State} (a : ByteApart s.pc s s') : s'.imm16 = s.imm16 := by
  rw [imm16_eq, imm16_eq, a.pc, a.readByte (succ_ne s.pc), a.readByte (by simp)]

theorem ByteApart.jumpRelative {s s' : State} (a : ByteApart s.pc s s') (c : Option Cond) :
    ByteApart s.pc (jumpRelative c s) (jumpRelative c s') := by
  have disp : s'.disp = s.disp := congrArg (BitVec.signExtend 16) a.imm8
  refine a.setReg .pc ?_
  rw [a.holds, reg_pc, reg_pc, a.pc, disp]

/-- An instruction reads the byte at `PC` only where it is a load of the accumulator aimed there. -/
theorem Effect.byteApart {s s' t : State} {i : Instr} (e : Effect s i t) (a : ByteApart s.pc s s')
    (elsewhere : ∀ ind, i = Sys2Proof.ldAccInd ind → s.reg (indirectReg ind) ≠ s.pc) :
    ∃ t', Effect s' i t' ∧ ByteApart s.pc t t' := by
  cases e with
  | ldPairImm p => exact ⟨_, .ldPairImm p, (a.setReg (pairReg p) a.imm16).advancePC _⟩
  | stBC => exact ⟨_, .stBC, (a.writeByte (a.reg .bc) (a.half .af .high)).advancePC _⟩
  | stDE => exact ⟨_, .stDE, (a.writeByte (a.reg .de) (a.half .af .high)).advancePC _⟩
  | stSP => exact ⟨_, .stSP, (a.writeWord a.imm16 (a.reg .sp)).advancePC _⟩
  | ldAccInd ind => exact ⟨_, .ldAccInd ind, (a.loadAccIndirect (elsewhere ind rfl)).advancePC _⟩
  | incPair p => exact ⟨_, .incPair p, (a.setReg (pairReg p) (congrArg (· + 1) (a.reg _))).advancePC _⟩
  | decPair p => exact ⟨_, .decPair p, (a.setReg (pairReg p) (congrArg (· - 1) (a.reg _))).advancePC _⟩
  | incReg r => exact ⟨_, .incReg r, (a.setReg8_declareFlags r (· + 1) (fun v => incFlags v (v + 1))).advancePC _⟩
  | decReg r => exact ⟨_, .decReg r, (a.setReg8_declareFlags r (· - 1) (fun v => decFlags v (v - 1))).advancePC _⟩
  | ldRegImm r => exact ⟨_, .ldRegImm r, (a.setHalf (reg8Word r) (reg8Half r) a.imm8).advancePC _⟩
  | rotateLeft c => exact ⟨_, .rotateLeft c, (a.rotateLeftCarry c).advancePC _⟩
  | rotateRight c => exact ⟨_, .rotateRight c, (a.rotateRightCarry c).advancePC _⟩
  | addHL p => exact ⟨_, .addHL p, (a.addPairs p).advancePC _⟩
  | jr => exact ⟨_, .jr, a.jumpRelative _⟩
  | jrNZ => exact ⟨_, .jrNZ, a.jumpRelative _⟩
  | jrZ => exact ⟨_, .jrZ, a.jumpRelative _⟩
  | jrNC => exact ⟨_, .jrNC, a.jumpRelative _⟩
  | jrC => exact ⟨_, .jrC, a.jumpRelative _⟩

/-- Settles O23: the effect from the state as it is has its like from the state with the byte replaced. -/
theorem opcodeByteNotRead : Obligations.OpcodeByteNotRead := by
  intro w i s t v decoded ran bc de hl
  have elsewhere : ∀ ind, i = ldAccInd ind → s.reg (indirectReg ind) ≠ s.pc := by
    rintro (_ | _ | _ | _) rfl
    · exact bc rfl
    · exact de rfl
    · exact hl (.inl rfl)
    · exact hl (.inr rfl)
  obtain ⟨t', e', apart⟩ := (exec_cases ran).byteApart (byteApart_writeByte s s.pc v) elsewhere
  exact ⟨(execute_of_decode decoded s).trans ran, t', (execute_of_decode decoded _).trans e'.exec_eq, apart.reg,
    fun b ne => apart.readByte ne⟩

end Sys2Proof.Machine
end

section
/-! PROOF. The 16-bit immediate loads (41_ld_pair_imm.md): one next state, by pair, for the four instructions. -/

namespace Sys2Proof.Machine

/-- `loadPairImmediate` with the dispatcher's advance (R103, R120): only the pair and `PC` are replaced. -/
theorem exec_ldPairImm (p : Pair) (s : State) :
    exec (ldPairImm p) s =
      .next { s.setReg (pairReg p) (s.readByte (s.pc + 2) ++ s.readByte (s.pc + 1)) with pc := s.pc + 3 } := by
  rw [(Effect.ldPairImm p).exec_eq, loadPairImmediate_eq]
  cases p <;> rfl

/-- Settles O31: each opcode is the encoding of its instruction, and `exec_ldPairImm` gives the effect for each pair.
The handler of R120 has the bare name, hence the prefix. -/
theorem LoadPair.loadPairImmediate : Obligations.LoadPairImmediate := by
  refine ⟨⟨?bc, ?de, ?hl, ?sp⟩, fun s =>
    ⟨exec_ldPairImm .bc s, exec_ldPairImm .de s, exec_ldPairImm .hl s, exec_ldPairImm .sp s⟩⟩
  all_goals exact decode_eq_some_iff.mpr rfl

end Sys2Proof.Machine
end

section
/-! PROOF. The stores and loads of the accumulator through a pair (42_ld_indirect_a.md): one next state, by pair, for the
two stores, and one, by addressing form, for the four loads. -/

namespace Sys2Proof.Machine

/-! ### Stores (R130, R131) -/

/-- `storeAccToMemory` with the dispatcher's advance (R103, R138), for the pairs that have a store (R75). -/
theorem exec_stAccInd {p : Pair} {i : Instr} (h : stAccInd p = some i) (s : State) :
    exec i s = .next { s.writeByte (s.reg (pairReg p)) (s.af.extractLsb' 8 8) with pc := s.pc + 1 } := by
  rw [← storeAccToMemory_eq]
  cases p <;> cases h
  case bc => exact Effect.stBC.exec_eq
  case de => exact Effect.stDE.exec_eq

/-- The next state of a store: the byte at the pair's address, and what the store leaves as it was. -/
theorem exec_stAccInd_frame {p : Pair} {i : Instr} (h : stAccInd p = some i) (s : State) :
    ∃ t, exec i s = .next t ∧ t = { s with mem := t.mem, pc := s.pc + 1 } ∧
      t.readByte (s.reg (pairReg p)) = s.af.extractLsb' 8 8 ∧ SameMemoryBut [s.reg (pairReg p)] s t :=
  ⟨_, exec_stAccInd h s, rfl, readByte_writeByte_same s _ _, sameMemoryBut_writeByte s _ _⟩

/-- Settles O32: each opcode is the encoding of its instruction, and `exec_stAccInd_frame` gives the effect for each
pair. -/
theorem storeAccumulator : Obligations.StoreAccumulator := by
  refine ⟨⟨?bc, ?de⟩, fun s => ⟨exec_stAccInd_frame (p := .bc) rfl s, exec_stAccInd_frame (p := .de) rfl s⟩⟩
  all_goals exact decode_eq_some_iff.mpr rfl

/-! ### Loads (R132 to R135) -/

/-- `loadAccIndirect` with the dispatcher's advance (R103, R139): the byte is read at the word's value before the word is
counted. -/
theorem exec_ldAccInd (ind : Indirect) (s : State) :
    exec (ldAccInd ind) s =
      .next { s.setReg (indirectReg ind) (indirectAfter ind (s.reg (indirectReg ind))) with
        af := s.readByte (s.reg (indirectReg ind)) ++ s.af.extractLsb' 0 8, pc := s.pc + 1 } := by
  rw [(Effect.ldAccInd ind).exec_eq, loadAccIndirect_eq]
  cases ind <;> rfl

/-- Settles O33: each opcode is the encoding of its instruction, and `exec_ldAccInd` gives the effect for each addressing
form. -/
theorem loadAccumulator : Obligations.LoadAccumulator := by
  refine ⟨⟨?bc, ?de, ?hlInc, ?hlDec⟩, fun s =>
    ⟨exec_ldAccInd .bc s, exec_ldAccInd .de s, exec_ldAccInd .hlInc s, exec_ldAccInd .hlDec s⟩⟩
  all_goals exact decode_eq_some_iff.mpr rfl

end Sys2Proof.Machine
end

section
/-! PROOF. The 16-bit increments and decrements (43_incdec16.md): one next state, by pair, for the four `INC rr` and one for
the four `DEC rr`. -/

namespace Sys2Proof.Machine

/-- `incPair` with the dispatcher's advance (R103, R140): only the pair and `PC` are replaced. -/
theorem exec_incPair (p : Pair) (s : State) :
    exec (incPair p) s = .next { s.setReg (pairReg p) (s.reg (pairReg p) + 1) with pc := s.pc + 1 } := by
  rw [(Effect.incPair p).exec_eq]
  cases p <;> rfl

/-- `decPair` with the dispatcher's advance (R103, R140): only the pair and `PC` are replaced. -/
theorem exec_decPair (p : Pair) (s : State) :
    exec (decPair p) s = .next { s.setReg (pairReg p) (s.reg (pairReg p) - 1) with pc := s.pc + 1 } := by
  rw [(Effect.decPair p).exec_eq]
  cases p <;> rfl

/-- Settles O34: each opcode is the encoding of its instruction, and `exec_incPair` and `exec_decPair` give the effect for
each pair. -/
theorem incDecPair : Obligations.IncDecPair := by
  refine ⟨⟨?incBC, ?incDE, ?incHL, ?incSP, ?decBC, ?decDE, ?decHL, ?decSP⟩, fun s =>
    ⟨exec_incPair .bc s, exec_incPair .de s, exec_incPair .hl s, exec_incPair .sp s,
      exec_decPair .bc s, exec_decPair .de s, exec_decPair .hl s, exec_decPair .sp s⟩⟩
  all_goals exact decode_eq_some_iff.mpr rfl

end Sys2Proof.Machine
end

section
/-! PROOF. The 8-bit increments and decrements (44_incdec8.md): a half is written, flags are declared and `PC` advances; the
result, the flags and the frame follow for all seven registers, and an increment and a decrement undo each other. -/

namespace Sys2Proof.Machine

/-! ### A half write, a declaration of flags and the dispatcher's advance -/

theorem half_advancePC (s : State) (k : Format) {w : Reg16} (ne : w ≠ .pc) (g : Half) :
    (s.advancePC k).half w g = s.half w g := half_congr (reg_setReg_ne s _ ne) g

/-- From `s` to `t`, `v` is written to the half that `r` names, `d` is declared, and a one-byte instruction ends (R103). -/
structure WritesHalf (r : Reg8) (v : Byte) (d : FlagDecl) (s t : State) : Prop where
  result     : t.reg8 r = v
  flagZ      : t.flag .z = d.z.value (s.flag .z)
  flagN      : t.flag .n = d.n.value (s.flag .n)
  flagH      : t.flag .h = d.h.value (s.flag .h)
  flagC      : t.flag .c = d.c.value (s.flag .c)
  halves     : SameHalvesBut [(reg8Word r, reg8Half r), (.af, .low)] s t
  lowNibble  : SameLowNibble s t
  pc         : t.pc = s.pc + 1
  memory     : SameMemoryBut [] s t

/-- The advance changes `PC` alone, so the rest is what the handler did. -/
theorem writesHalf_advancePC (r : Reg8) (v : Byte) (d : FlagDecl) (s : State) :
    WritesHalf r v d s (((s.setReg8 r v).declareFlags d).advancePC .implied) := by
  obtain ⟨res, z, n, h, c, halves, low, pc, mem⟩ := setReg8_declareFlags_spec r v d s
  exact {
    result := (half_advancePC _ _ (reg8Word_ne_pc r) _).trans res
    flagZ := z
    flagN := n
    flagH := h
    flagC := c
    halves := fun w g ne out => (half_advancePC _ _ ne g).trans (halves w g ne out)
    lowNibble := low
    pc := congrArg (· + 1) pc
    memory := fun a _ => readByte_congr mem a }

/-- Two such instructions advance `PC` by 2. -/
theorem WritesHalf.pc_trans {r q : Reg8} {v w : Byte} {d e : FlagDecl} {s t u : State} (a : WritesHalf r v d s t)
    (b : WritesHalf q w e t u) : u.pc = s.pc + 2 := by
  rw [b.pc, a.pc, BitVec.add_assoc]; rfl

/-- `INC r` (R150). -/
theorem exec_incReg (r : Reg8) (s : State) : ∃ t, exec (incReg r) s = .next t ∧
    WritesHalf r (s.reg8 r + 1) (incFlags (s.reg8 r) (s.reg8 r + 1)) s t :=
  ⟨_, (Effect.incReg r).exec_eq, writesHalf_advancePC ..⟩

/-- `DEC r` (R150). -/
theorem exec_decReg (r : Reg8) (s : State) : ∃ t, exec (decReg r) s = .next t ∧
    WritesHalf r (s.reg8 r - 1) (decFlags (s.reg8 r) (s.reg8 r - 1)) s t :=
  ⟨_, (Effect.decReg r).exec_eq, writesHalf_advancePC ..⟩

/-! ### The results and the conditions as arithmetic -/

theorem toNat_sub_one (v : Byte) : (v - 1).toNat = (v.toNat + 255) % 256 := by
  rw [BitVec.toNat_sub, Nat.add_comm]; rfl

theorem beq_zero_eq_decide (v : Byte) : (v == 0) = decide (v.toNat = 0) := by
  rw [Bool.eq_iff_iff, beq_iff_eq, decide_eq_true_iff, ← BitVec.toNat_inj]; rfl

theorem WritesHalf.flagZ_decide {r : Reg8} {v : Byte} {d : FlagDecl} {s t : State} (eff : WritesHalf r v d s t)
    (z : d.z = .setIf (v == 0)) : t.flag .z = decide ((t.reg8 r).toNat = 0) := by
  rw [eff.flagZ, z, eff.result]; exact beq_zero_eq_decide v

/-- A decrement borrows into bit 3 exactly where the increment before it carried out of it. -/
theorem decHalfCarry_add_one (v : Byte) : decHalfCarry (v + 1) = decide (v.toNat % 16 = 15) := by
  rw [decHalfCarry_eq, decide_eq_decide]; bv_omega

/-- An increment carries out of bit 3 exactly where the decrement before it borrowed into it. -/
theorem incHalfCarry_sub_one (v : Byte) : incHalfCarry (v - 1) = decide (v.toNat % 16 = 0) := by
  rw [incHalfCarry_eq, decide_eq_decide]; bv_omega

/-! ### One operation (R151 to R164) -/

/-- Settles O35: each opcode is the encoding of its instruction, and `exec_incReg` gives the effect for each register. -/
theorem incrementHalf : Obligations.IncrementHalf := by
  refine ⟨⟨?b, ?c, ?d, ?e, ?h, ?l, ?a⟩, ?effect⟩
  case effect =>
    rintro ⟨i, w, g⟩ m s
    obtain ⟨r, rfl, rfl, rfl⟩ := of_mem_incTarget m
    obtain ⟨t, ran, eff⟩ := exec_incReg r s
    exact ⟨t, ran, (congrArg _ eff.result).trans (BitVec.toNat_add _ 1), eff.flagZ_decide rfl, eff.flagN,
      eff.flagH.trans (incHalfCarry_eq _), eff.flagC, eff.halves, eff.lowNibble, eff.pc, eff.memory⟩
  all_goals exact decode_eq_some_iff.mpr rfl

/-- Settles O36: each opcode is the encoding of its instruction, and `exec_decReg` gives the effect for each register. -/
theorem decrementHalf : Obligations.DecrementHalf := by
  refine ⟨⟨?b, ?c, ?d, ?e, ?h, ?l, ?a⟩, ?effect⟩
  case effect =>
    rintro ⟨i, w, g⟩ m s
    obtain ⟨r, rfl, rfl, rfl⟩ := of_mem_decTarget m
    obtain ⟨t, ran, eff⟩ := exec_decReg r s
    exact ⟨t, ran, (congrArg _ eff.result).trans (toNat_sub_one _), eff.flagZ_decide rfl, eff.flagN,
      eff.flagH.trans (decHalfCarry_eq _), eff.flagC, eff.halves, eff.lowNibble, eff.pc, eff.memory⟩
  all_goals exact decode_eq_some_iff.mpr rfl

/-! ### One operation and its reverse (95_test_vectors.md S2) -/

/-- `INC r` then `DEC r`: the decrement starts from the value plus 1. -/
theorem exec_incReg_decReg (r : Reg8) (s : State) :
    ∃ t u, exec (incReg r) s = .next t ∧ exec (decReg r) t = .next u ∧ u.reg8 r = s.reg8 r ∧ u.pc = s.pc + 2 ∧
      u.flag .n = true ∧ u.flag .c = s.flag .c ∧ u.flag .z = decide ((s.reg8 r).toNat = 0) ∧
      u.flag .h = decide ((s.reg8 r).toNat % 16 = 15) := by
  obtain ⟨t, inc, a⟩ := exec_incReg r s
  obtain ⟨u, dec, b⟩ := exec_decReg r t
  rw [a.result, BitVec.add_sub_cancel] at b
  exact ⟨t, u, inc, dec, b.result, a.pc_trans b, b.flagN, b.flagC.trans a.flagC, b.flagZ.trans (beq_zero_eq_decide _),
    b.flagH.trans (decHalfCarry_add_one _)⟩

/-- `DEC r` then `INC r`: the increment starts from the value minus 1. -/
theorem exec_decReg_incReg (r : Reg8) (s : State) :
    ∃ t u, exec (decReg r) s = .next t ∧ exec (incReg r) t = .next u ∧ u.reg8 r = s.reg8 r ∧ u.pc = s.pc + 2 ∧
      u.flag .n = false ∧ u.flag .c = s.flag .c ∧ u.flag .z = decide ((s.reg8 r).toNat = 0) ∧
      u.flag .h = decide ((s.reg8 r).toNat % 16 = 0) := by
  obtain ⟨t, dec, a⟩ := exec_decReg r s
  obtain ⟨u, inc, b⟩ := exec_incReg r t
  rw [a.result, BitVec.sub_add_cancel] at b
  exact ⟨t, u, dec, inc, b.result, a.pc_trans b, b.flagN, b.flagC.trans a.flagC, b.flagZ.trans (beq_zero_eq_decide _),
    b.flagH.trans (incHalfCarry_sub_one _)⟩

/-- Settles O37: each row is the pair of instructions of one register, and the two orders are `exec_incReg_decReg`
and `exec_decReg_incReg`. -/
theorem incDecHalfRestore : Obligations.IncDecHalfRestore := by
  intro x m s
  have named : ∃ r, x = (incReg r, decReg r, reg8Word r, reg8Half r) := by
    simp only [List.mem_cons, List.not_mem_nil, or_false] at m
    rcases m with rfl | rfl | rfl | rfl | rfl | rfl | rfl
    exacts [⟨.b, rfl⟩, ⟨.c, rfl⟩, ⟨.d, rfl⟩, ⟨.e, rfl⟩, ⟨.h, rfl⟩, ⟨.l, rfl⟩, ⟨.a, rfl⟩]
  obtain ⟨r, rfl⟩ := named
  exact ⟨exec_incReg_decReg r s, exec_decReg_incReg r s⟩

end Sys2Proof.Machine
end

section
/-! PROOF. The 8-bit immediate loads (45_ld_r_imm8.md): one next state, by register, for the seven instructions. -/

namespace Sys2Proof.Machine

/-- `loadImmediate8` with the dispatcher's advance (R103, R177): the half takes the byte at `PC + 1`, and `PC` moves past
it. -/
theorem exec_ldRegImm (r : Reg8) (s : State) :
    exec (ldRegImm r) s = .next { s.setReg8 r (s.readByte (s.pc + 1)) with pc := s.pc + 2 } := by
  rw [(Effect.ldRegImm r).exec_eq, loadImmediate8_eq]
  cases r <;> rfl

/-- `exec_ldRegImm` where the register write is known as a state `t`, a row of the register table (R34). -/
theorem exec_ldRegImm_of_setReg8 {r : Reg8} {s t : State} (row : s.setReg8 r (s.readByte (s.pc + 1)) = t) :
    exec (ldRegImm r) s = .next { t with pc := s.pc + 2 } := row ▸ exec_ldRegImm r s

/-- Settles O38: each opcode is the encoding of its instruction, `exec_ldRegImm` gives the effect for each register, and
the register table (O5) says which half of which word the register is. -/
theorem loadImmediateHalf : Obligations.LoadImmediateHalf := by
  refine ⟨⟨?b, ?c, ?d, ?e, ?h, ?l, ?a⟩, fun s => ?effect⟩
  case effect =>
    obtain ⟨-, -, -, -, -, -, -, b, c, d, e, h, l, a⟩ := eightBitRegisterTable s (s.readByte (s.pc + 1))
    exact ⟨exec_ldRegImm_of_setReg8 b, exec_ldRegImm_of_setReg8 c, exec_ldRegImm_of_setReg8 d,
      exec_ldRegImm_of_setReg8 e, exec_ldRegImm_of_setReg8 h, exec_ldRegImm_of_setReg8 l, exec_ldRegImm_of_setReg8 a⟩
  all_goals exact decode_eq_some_iff.mpr rfl

end Sys2Proof.Machine
end

section
/-! PROOF. The rotates of the accumulator (46_rotate_a.md): the rotated byte as its old bits with the carry-in joined at one
end, its value as arithmetic, the effect of the four instructions, and a right rotate after a left one. -/

namespace Sys2Proof.Machine

/-! ### The rotated byte: the carry-in joined at one end (R184) -/

theorem shiftLeft_or_bitByte (v : Byte) (b : Bool) : (v <<< 1) ||| bitByte b = (v.setWidth 7).concat b := by
  apply BitVec.eq_of_getLsbD_eq; intro i lt
  interval_cases i <;> simp [bitByte]

theorem shiftRight_or_bitByte (v : Byte) (b : Bool) :
    (v >>> 1) ||| (bitByte b <<< 7) = (v.extractLsb' 1 7).cons b := by
  apply BitVec.eq_of_getLsbD_eq; intro i lt
  interval_cases i <;> simp [bitByte, BitVec.getElem_cons]

theorem toNat_shiftLeft_or_bitByte (v : Byte) (b : Bool) :
    ((v <<< 1) ||| bitByte b).toNat = 2 * v.toNat % 256 + b.toNat := by
  rw [shiftLeft_or_bitByte, BitVec.toNat_concat, BitVec.toNat_setWidth]; omega

theorem toNat_shiftRight_or_bitByte (v : Byte) (b : Bool) :
    ((v >>> 1) ||| (bitByte b <<< 7)).toNat = v.toNat / 2 + 128 * b.toNat := by
  rw [shiftRight_or_bitByte, BitVec.toNat_cons', BitVec.extractLsb'_toNat, Nat.shiftLeft_eq, Nat.shiftRight_eq_div_pow]
  omega

/-! ### The bit shifted off, as arithmetic -/

theorem toNat_getLsbD_seven (v : Byte) : (v.getLsbD 7).toNat = v.toNat / 128 :=
  (Nat.toNat_testBit v.toNat 7).trans (Nat.mod_eq_of_lt (Nat.div_lt_of_lt_mul v.isLt))

theorem getLsbD_seven_eq_decide (v : Byte) : v.getLsbD 7 = decide (v.toNat / 128 = 1) := by
  rw [← toNat_getLsbD_seven]; cases v.getLsbD 7 <;> rfl

theorem toNat_getLsbD_zero (v : Byte) : (v.getLsbD 0).toNat = v.toNat % 2 :=
  (Nat.toNat_testBit v.toNat 0).trans (by rw [pow_zero, Nat.div_one])

theorem getLsbD_zero_eq_decide (v : Byte) : v.getLsbD 0 = decide (v.toNat % 2 = 1) :=
  Nat.testBit_zero v.toNat

/-! ### One rotate (R180 to R183) -/

/-- `RLCA`, and `RLA` with `c`. -/
theorem exec_rotateLeft (c : Bool) (s : State) : ∃ t, exec (if c then .rla else .rlca) s = .next t ∧
    WritesHalf .a (rotatedLeft c s) (rotateFlags (s.a.getLsbD 7)) s t :=
  ⟨_, (Effect.rotateLeft c).exec_eq, writesHalf_advancePC ..⟩

/-- `RRCA`, and `RRA` with `c`. -/
theorem exec_rotateRight (c : Bool) (s : State) : ∃ t, exec (if c then .rra else .rrca) s = .next t ∧
    WritesHalf .a (rotatedRight c s) (rotateFlags (s.a.getLsbD 0)) s t :=
  ⟨_, (Effect.rotateRight c).exec_eq, writesHalf_advancePC ..⟩

/-- The effect of a rotate, for the value `n` of its result and the condition `p` under which the bit shifted off is 1. -/
theorem rotate_effect {i : Instr} {s : State} {v : Byte} {out : Bool} {n : Nat} {p : Prop} [Decidable p]
    (ran : ∃ t, exec i s = .next t ∧ WritesHalf .a v (rotateFlags out) s t) (result : v.toNat = n)
    (shifted : out = decide p) :
    ∃ t, exec i s = .next t ∧ t.a.toNat = n ∧ t.flag .c = decide p ∧ t.flag .z = false ∧ t.flag .n = false ∧
      t.flag .h = false ∧ SameHalvesBut [(.af, .high), (.af, .low)] s t ∧ SameLowNibble s t ∧ t.pc = s.pc + 1 ∧
      SameMemoryBut [] s t := by
  obtain ⟨t, next, eff⟩ := ran
  exact ⟨t, next, (congrArg _ eff.result).trans result, eff.flagC.trans shifted, eff.flagZ, eff.flagN, eff.flagH,
    eff.halves, eff.lowNibble, eff.pc, eff.memory⟩

/-- Settles O39: each opcode is the encoding of its instruction, and `rotate_effect` gives the effect, with the carry-in the bit
shifted off for `RLCA` and `RRCA` and the old `Cy` for `RLA` and `RRA`. -/
theorem rotateAccumulator : Obligations.RotateAccumulator := by
  refine ⟨⟨?rlca, ?rrca, ?rla, ?rra⟩, fun s => ?effect⟩
  case effect =>
    have left := toNat_shiftLeft_or_bitByte s.a
    have right := toNat_shiftRight_or_bitByte s.a
    have bit7 := getLsbD_seven_eq_decide s.a
    have bit0 := getLsbD_zero_eq_decide s.a
    have carry : (s.flag .c).toNat = if s.flag .c then 1 else 0 := Bool.cond_eq_ite _ _ _
    refine ⟨rotate_effect (exec_rotateLeft false s) ?_ bit7, rotate_effect (exec_rotateRight false s) ?_ bit0,
      rotate_effect (exec_rotateLeft true s) ?_ bit7, rotate_effect (exec_rotateRight true s) ?_ bit0⟩
    · exact (left _).trans (congrArg _ (toNat_getLsbD_seven s.a))
    · exact (right _).trans (congrArg (_ + 128 * ·) (toNat_getLsbD_zero s.a))
    · exact (left _).trans (congrArg _ carry)
    · exact (right _).trans (congrArg (_ + 128 * ·) carry)
  all_goals exact decode_eq_some_iff.mpr rfl

/-! ### A left rotate and the right rotate of the same kind (R181, R183, corner cases) -/

/-- What a left rotate brought in is what a right rotate shifts off. -/
theorem getLsbD_zero_shiftLeft_or_bitByte (v : Byte) (b : Bool) : ((v <<< 1) ||| bitByte b).getLsbD 0 = b := by
  rw [shiftLeft_or_bitByte, BitVec.getLsbD_concat_zero]

/-- Shifting back right and giving bit 7 the bit that went out restores the byte, whatever was brought in. -/
theorem shiftRight_shiftLeft_or_bitByte (v : Byte) (b : Bool) :
    (((v <<< 1) ||| bitByte b) >>> 1) ||| (bitByte (v.getLsbD 7) <<< 7) = v := by
  have isBit := b.toNat_lt
  apply BitVec.eq_of_toNat_eq
  rw [toNat_shiftRight_or_bitByte, toNat_shiftLeft_or_bitByte, toNat_getLsbD_seven]; omega

/-- The carry-in of the right rotate is the bit the left rotate shifted off: still in `A` as bit 0 without `c`, in `Cy` with it. -/
theorem exec_rotateLeft_rotateRight (c : Bool) (s : State) : ∃ t u, exec (if c then .rla else .rlca) s = .next t ∧
    exec (if c then .rra else .rrca) t = .next u ∧ u.a = s.a ∧
    u.flag .c = if c then s.flag .c else s.a.getLsbD 7 := by
  obtain ⟨t, ranLeft, l⟩ := exec_rotateLeft c s
  obtain ⟨u, ranRight, r⟩ := exec_rotateRight c t
  have rotated : t.a = rotatedLeft c s := l.result
  have out : t.a.getLsbD 0 = if c then s.flag .c else s.a.getLsbD 7 := by
    rw [rotated, rotatedLeft, getLsbD_zero_shiftLeft_or_bitByte]
  have carryIn : (if c then t.flag .c else t.a.getLsbD 0) = s.a.getLsbD 7 := by
    cases c
    case false => exact out
    case true => exact l.flagC
  have restored : rotatedRight c t = s.a := by
    rw [rotatedRight, carryIn, rotated, rotatedLeft, shiftRight_shiftLeft_or_bitByte]
  exact ⟨t, u, ranLeft, ranRight, r.result.trans restored, r.flagC.trans out⟩

/-- Settles O40: `exec_rotateLeft_rotateRight` without the old carry and with it. -/
theorem rotatesUndoEachOther : Obligations.RotatesUndoEachOther := by
  intro s
  obtain ⟨t, u, rlca, rrca, restored, -⟩ := exec_rotateLeft_rotateRight false s
  exact ⟨⟨t, u, rlca, rrca, restored⟩, exec_rotateLeft_rotateRight true s⟩

end Sys2Proof.Machine
end

section
/-! PROOF. The store of the stack pointer (47_ld_nn_sp.md): the 16-bit store at the immediate, then the advance of `PC`. -/

namespace Sys2Proof.Machine

/-- Settles O41: `storeSPToMemory` is the 16-bit store of `SP` at the immediate as it stood before, whose two bytes and whose
frame are known; the dispatcher's advance (R103) touches `PC` alone. -/
theorem storeStackPointer : Obligations.StoreStackPointer :=
  ⟨decode_eq_some_iff.mpr rfl, fun s =>
    ⟨s.imm16, _, imm16_eq s, Effect.stSP.exec_eq, rfl, readByte_writeWord_low s _ _, readByte_writeWord_high s _ _,
      sameMemoryBut_writeWord s _ _⟩⟩

end Sys2Proof.Machine
end

section
/-! PROOF. The 16-bit add (48_add_hl.md): `addPairs` and the advance of `PC`, for the four words that can be added. -/

namespace Sys2Proof.Machine

/-- Settles O42: each opcode is the encoding of its instruction, and `addPairs_spec` gives the effect for each pair; the
dispatcher's advance (R103) keeps every half that counts. -/
theorem addToHL : Obligations.AddToHL := by
  refine ⟨⟨?bc, ?de, ?hl, ?sp⟩, ?effect⟩
  case effect =>
    rintro ⟨i, w⟩ m s
    obtain ⟨p, rfl, rfl⟩ := of_mem_addSource m
    obtain ⟨sum, z, n, h, c, halves, low, pc, mem⟩ := addPairs_spec p s
    exact ⟨_, (Effect.addHL p).exec_eq, (congrArg _ sum).trans (BitVec.toNat_add _ _), h.trans (addHalfCarry_eq _ _),
      c, n, z, fun q g ne out => (half_advancePC _ _ ne g).trans (halves q g ne out), low, congrArg (· + 1) pc,
      sameMemoryBut_of_mem mem []⟩
  all_goals exact decode_eq_some_iff.mpr rfl

end Sys2Proof.Machine
end

section
/-! PROOF. The relative jumps (49_jr.md): the next state of a jump taken and of one not taken, and each condition as a bit
of `AF`. -/

namespace Sys2Proof.Machine

/-! ### The two branches of `jumpRelative` (R205) -/

theorem jumpRelative_of_holds {c : Option Cond} {s : State} (h : s.holds c = true) :
    jumpRelative c s = { s with pc := BitVec.ofInt 16 (s.pc.toNat + 2 + (s.readByte (s.pc + 1)).toInt) } := by
  rw [jumpRelative, if_pos h, ← pc_add_disp]; rfl

theorem jumpRelative_of_not_holds {c : Option Cond} {s : State} (h : ¬ s.holds c = true) :
    jumpRelative c s = { s with pc := BitVec.ofInt 16 (s.pc.toNat + 2) } := by
  rw [jumpRelative, if_neg h, ← pc_add_two]; rfl

/-- Settles O43: the unconditional form always holds. -/
theorem jumpAlways : Obligations.JumpAlways :=
  ⟨decode_eq_some_iff.mpr rfl, fun _ => Effect.jr.exec_eq.trans (congrArg _ (jumpRelative_of_holds rfl))⟩

/-! ### The conditions (R205, R207 to R210) -/

theorem holds_nz_iff (s : State) : s.holds (some .nz) = true ↔ s.af.getLsbD 7 = false := by
  rw [State.holds, flag_eq, Bool.not_eq_true']; rfl

theorem holds_z_iff (s : State) : s.holds (some .z) = true ↔ s.af.getLsbD 7 = true := by
  rw [State.holds, flag_eq]; rfl

theorem holds_nc_iff (s : State) : s.holds (some .nc) = true ↔ s.af.getLsbD 4 = false := by
  rw [State.holds, flag_eq, Bool.not_eq_true']; rfl

theorem holds_c_iff (s : State) : s.holds (some .c) = true ↔ s.af.getLsbD 4 = true := by
  rw [State.holds, flag_eq]; rfl

/-- A conditional jump, taken and not taken, where its condition is known as a proposition of the state. -/
theorem exec_of_jumpRelative {i : Instr} {c : Option Cond} {s : State} {p : Prop}
    (e : Effect s i (jumpRelative c s)) (cond : s.holds c = true ↔ p) :
    (p → exec i s = .next { s with pc := BitVec.ofInt 16 (s.pc.toNat + 2 + (s.readByte (s.pc + 1)).toInt) }) ∧
      (¬ p → exec i s = .next { s with pc := BitVec.ofInt 16 (s.pc.toNat + 2) }) :=
  ⟨fun taken => e.exec_eq.trans (congrArg _ (jumpRelative_of_holds (cond.mpr taken))),
    fun skipped => e.exec_eq.trans (congrArg _ (jumpRelative_of_not_holds (mt cond.mp skipped)))⟩

/-- Settles O44: each opcode is the encoding of its instruction, and `exec_of_jumpRelative` gives both branches for each
condition. -/
theorem jumpOnCondition : Obligations.JumpOnCondition := by
  refine ⟨⟨?nz, ?z, ?nc, ?c⟩, fun x m s => ?effect⟩
  case effect =>
    simp only [List.mem_cons, List.not_mem_nil, or_false] at m
    rcases m with rfl | rfl | rfl | rfl
    · exact exec_of_jumpRelative .jrNZ (holds_nz_iff s)
    · exact exec_of_jumpRelative .jrZ (holds_z_iff s)
    · exact exec_of_jumpRelative .jrNC (holds_nc_iff s)
    · exact exec_of_jumpRelative .jrC (holds_c_iff s)
  all_goals exact decode_eq_some_iff.mpr rfl

end Sys2Proof.Machine
end

section
/-! PROOF. Exceptions (60_exceptions.md): no instruction of the plain space can fail. -/

namespace Sys2Proof.Machine

/-- Only the extended space has no length (R82). -/
theorem format_ne_stub {i : Instr} (h : ∀ low, i ≠ .extendedStub low) : i.format ≠ .stub := by
  obtain ⟨decoded, _⟩ := Laws.Encoding.all i
  rcases decode_some decoded with ⟨stub, _⟩ | ⟨_, _, notStub, _⟩
  · exact absurd stub (h _)
  · exact notStub

/-- Settles O45: an instruction other than the stub has a format of its own, hence an effect. -/
theorem admittedInstructionsComplete : Obligations.AdmittedInstructionsComplete :=
  fun _ s h => exec_next (format_ne_stub h) s

end Sys2Proof.Machine
end

section
/-! PROOF. `initialize` (70_reset_and_hazards.md): the Register File is as after reset, and Memory is kept. -/

namespace Sys2Proof.Machine

theorem initialise_reg (s : State) (r : Reg16) : s.initialise.reg r = State.reset.reg r := by cases r <;> rfl

/-- Settles O2: the words, the halves and the flags are those of the state after reset (O1). -/
theorem initialiseZeroesWords : Obligations.InitialiseZeroesWords := by
  intro s
  obtain ⟨af, bc, de, hl, sp, pc, half, flag⟩ := resetState
  have halves : ∀ w h, s.initialise.half w h = State.reset.half w h := fun w => half_congr (initialise_reg s w)
  exact ⟨af, bc, de, hl, sp, pc, fun f => (flag_congr (halves .af .low) f).trans (flag f),
    fun w h => (halves w h).trans (half w h)⟩

/-- Settles O3: `initialize` leaves the list of written bytes as it is. -/
theorem initialiseKeepsMemory : Obligations.InitialiseKeepsMemory :=
  fun s => sameMemoryBut_of_mem (initialise_mem s) []

end Sys2Proof.Machine
end
